-- ==== Sys2Proof/Word.lean ====
section
/-! DEFINITION. The unsigned words of the block: u8, u16 and u32 (00_scope.md rule R8). -/

namespace Sys2Proof

/-- `u8` (R8): an opcode, a payload byte, a byte of frame memory, a colour channel. -/
abbrev Byte := BitVec 8

/-- `u16` (R8): a coordinate, an extent, a pixel value, a window register. -/
abbrev Word16 := BitVec 16

/-- `u32` (R8): the length field of DATA. -/
abbrev Word32 := BitVec 32

end Sys2Proof
end

