-- ==== Sys2Proof/Config.lean ====
section
/-! DEFINITION. The configuration record `Cfg` of 00_scope.md rule R5, the draws the environment makes
(40_framer.md rule R104), and the open constants: each is `opaque` with no body, so no proof can learn its value. -/

namespace Sys2Proof

/-- The level of a line: Low or High (R11, R26). -/
inductive Level
  | low
  | high
deriving DecidableEq, Repr, Inhabited

/-- `SPI_BIT_ORDER` (R5, 20_memory.md R58). No rule reads it. PRESUMED: that these are its two values (log 10). -/
inductive BitOrder
  | msbFirst
  | lsbFirst
deriving DecidableEq, Repr, Inhabited

/-- A register command: "a `(opcode: u8, payload: ordered sequence of bytes or none)` pair" (00_scope.md, glossary). -/
structure RegCmd where
  op      : Byte
  payload : Option (List Byte)
deriving DecidableEq, Repr, Inhabited

/-- One draw of the environment for one frame (40_framer.md R104): `bf = some k` makes the frame fail after its
first `k` bytes, and `csf` is the chip-select level such a failure leaves. -/
structure BusDraw where
  bf  : Option Nat
  csf : Bool
deriving DecidableEq, Repr, Inhabited

/-- The configuration of one block instance (00_scope.md R5). Nothing changes a field after construction (R34).
`INIT_TABLE_PREFIX : Bool → List (u8 × Option (List u8))` is held as its two values, so that a configuration is
plain data (log 1). A field's default is the spec's own default for it (R5). -/
structure Cfg where
  /-- `W`, the width in pixels. -/
  w : Word16
  /-- `H`, the height in pixels. -/
  h : Word16
  /-- `MAX_W`. -/
  maxW : Nat := 65535
  /-- `MAX_H`. -/
  maxH : Nat := 65535
  /-- `HAS_DC`: the command/data select line is wired. -/
  hasDc : Bool := true
  /-- `HAS_CS`: the chip-select line is wired. -/
  hasCs : Bool := true
  /-- `HAS_RST`: the optional hardware reset line is wired (R4). -/
  hasRst : Bool
  /-- `ORIENTATION_DEFAULT`. -/
  orientationDefault : Byte
  /-- `ORIENT`, an opaque pass-through byte (R34, R123). -/
  orient : Byte := orientationDefault
  /-- `EXT_VCC`. -/
  extVcc : Bool := false
  /-- `INIT_TABLE_PREFIX(false)`. -/
  initTablePlain : List RegCmd
  /-- `INIT_TABLE_PREFIX(true)`. -/
  initTableExtVcc : List RegCmd
  /-- `MADCTL_OPCODE`. -/
  madctlOpcode : Byte
  /-- `CS_ACTIVE_LEVEL`. -/
  csActiveLevel : Level
  /-- `DC_COMMAND_LEVEL`. -/
  dcCommandLevel : Level
  /-- `SPI_MODE`, opaque. -/
  spiMode : Nat
  /-- `SPI_BIT_ORDER`. -/
  spiBitOrder : BitOrder
  /-- `SPI_CLOCK_HZ`. -/
  spiClockHz : Nat
  /-- `FB_INIT`, a list of `N_FB` bytes. -/
  fbInit : List Byte
deriving DecidableEq, Repr

/-- `N_FB = 2 · W · H`, in unbounded naturals (R7). -/
def Cfg.nFb (c : Cfg) : Nat := 2 * c.w.toNat * c.h.toNat

/-- `INIT_TABLE_PREFIX(e)` (R5, 41_init_sequencer.md R125). -/
def Cfg.initTablePrefix (c : Cfg) (e : Bool) : List RegCmd :=
  if e then c.initTableExtVcc else c.initTablePlain

/-- The table this instance replays, `INIT_TABLE_PREFIX(EXT_VCC)` (R125). -/
def Cfg.initTable (c : Cfg) : List RegCmd := c.initTablePrefix c.extVcc

namespace Config

/-- The instance's `W - 1`, open: any value that R6 admits under the default bound (log 2). -/
opaque widthPred : Fin 65535
/-- The instance's `H - 1`, open in the same way (log 2). -/
opaque heightPred : Fin 65535
/-- The instance's `HAS_RST`, open (R5: "free"). -/
opaque hasRst : Bool
/-- `ORIENTATION_DEFAULT`, open (92_eei_decisions.md D25). -/
opaque orientationDefault : Byte
/-- `INIT_TABLE_PREFIX`, open (D25). -/
opaque initTablePrefix : Bool → List RegCmd
/-- `MADCTL_OPCODE`, open (D25). -/
opaque madctlOpcode : Byte
/-- `CS_ACTIVE_LEVEL`, open (D7). -/
opaque csActiveLevel : Level
/-- `DC_COMMAND_LEVEL`, open (D8). -/
opaque dcCommandLevel : Level
/-- `SPI_MODE`, open (D9). -/
opaque spiMode : Nat
/-- `SPI_BIT_ORDER`, open (D9). -/
opaque spiBitOrder : BitOrder
/-- `SPI_CLOCK_HZ`, open (D9). -/
opaque spiClockHz : Nat
/-- Byte `a` of `FB_INIT`, open (D24). -/
opaque fbInitByte : Nat → Byte
/-- The `n`-th bus-fault draw that `State.draws` does not list, open (40_framer.md R104, log 3). -/
opaque busDraw : Nat → BusDraw

/-- The configuration of the instance that `State.reset` powers on: every open parameter is an open constant, the
spec's defaults stand where the spec gives one, and both required lines are present (log 2). -/
def cfg : Cfg where
  w := BitVec.ofNat 16 (widthPred.val + 1)
  h := BitVec.ofNat 16 (heightPred.val + 1)
  hasRst := hasRst
  orientationDefault := orientationDefault
  initTablePlain := initTablePrefix false
  initTableExtVcc := initTablePrefix true
  madctlOpcode := madctlOpcode
  csActiveLevel := csActiveLevel
  dcCommandLevel := dcCommandLevel
  spiMode := spiMode
  spiBitOrder := spiBitOrder
  spiClockHz := spiClockHz
  fbInit := (List.range (2 * (BitVec.ofNat 16 (widthPred.val + 1)).toNat
    * (BitVec.ofNat 16 (heightPred.val + 1)).toNat)).map fbInitByte

end Config

end Sys2Proof
end

