-- ==== Sys2Proof/Syntax.lean ====
section
/-! DEFINITION. The block's instructions: one constructor per row of spec/opcode_table.json (ten host requests of
30_encoding.md rule R73 and seven wire commands of rule R87), and the assembly lines of rules R92 and R93 as data. -/

namespace Sys2Proof

/-- One row of the opcode table with its operands. The first ten are the host's requests (R73). The last seven are
the panel commands the block emits (R87): "an output encoding, not something the block decodes" (R3); each carries
the data bytes that follow its opcode on the wire (log 8). -/
inductive Instr
  /-- CMD `op` (R101). -/
  | cmd (op : Byte)
  /-- DATA `payload` (R102). -/
  | data (payload : List Byte)
  /-- RESET (R121). -/
  | reset
  /-- INIT (R122). -/
  | init
  /-- PRESENT (R143). -/
  | present
  /-- SETPX `x, y, c` (R161). -/
  | setpx (x y c : Word16)
  /-- GETPX `x, y` (R163). -/
  | getpx (x y : Word16)
  /-- FILL `c` (R165). -/
  | fill (c : Word16)
  /-- BLIT `x, y, w, h` with its source `pix` (R167). -/
  | blit (x y w h : Word16) (pix : List Byte)
  /-- RGB565 `r, g, b` (R172). -/
  | rgb565 (r g b : Byte)
  /-- SWRESET, no data (R120). -/
  | swreset
  /-- SLPOUT, no data (R122). -/
  | slpout
  /-- DISPON, no data (R122). -/
  | dispon
  /-- CASET with `col_start`, `col_end` (R88, R141). -/
  | caset (colStart colEnd : Word16)
  /-- PASET with `row_start`, `row_end` (R88, R141). -/
  | paset (rowStart rowEnd : Word16)
  /-- RAMWR with its burst (R89, R142). -/
  | ramwr (burst : List Byte)
  /-- MADCTL with its one byte (R87, R123). -/
  | madctl (b : Byte)
deriving DecidableEq, Repr

/-- Is the row a host request (R73) or a wire command (R87)? -/
def Instr.isRequest : Instr → Bool
  | .cmd _ => true
  | .data _ => true
  | .reset => true
  | .init => true
  | .present => true
  | .setpx _ _ _ => true
  | .getpx _ _ => true
  | .fill _ => true
  | .blit _ _ _ _ _ => true
  | .rgb565 _ _ _ => true
  | .swreset => false
  | .slpout => false
  | .dispon => false
  | .caset _ _ => false
  | .paset _ _ => false
  | .ramwr _ => false
  | .madctl _ => false

/-- The ten request opcodes by name (R73). -/
inductive ReqOp
  | cmd | data | reset | init | present | setpx | getpx | fill | blit | rgb565
deriving DecidableEq, Repr

/-- The request formats (R71). -/
inductive Format
  | f0 | f1 | fl | fc | fxy | fxyc | frect | frgb
deriving DecidableEq, Repr

/-- What decoding a request's byte string answers (R70, R74, R75). -/
inductive Decoded
  /-- A request, and the bytes after its own length. -/
  | ok (i : Instr) (rest : List Byte)
  /-- Byte 0 is an unassigned `OP` value (R75). -/
  | unassigned (op : Byte)
  /-- The string ends before the length of R74 (R75: *truncated*). -/
  | truncated
deriving DecidableEq, Repr

/-- What reading a register command off the wire answers (R87). -/
inductive WireDecoded
  /-- A command of R87. -/
  | ok (i : Instr)
  /-- Not an opcode the block emits on its own (R90: passed verbatim, never interpreted). -/
  | other (op : Byte)
  /-- An opcode of R87 with another number of data bytes than R87 gives it. -/
  | badData (op : Byte)
  /-- No opcode byte at all. -/
  | empty
deriving DecidableEq, Repr

/-- The mnemonics of the assembly syntax: the ten requests (R92) and the three pseudo-requests (R93). -/
inductive AsmName
  | cmd | data | reset | init | present | setpx | getpx | fill | blit | rgb565
  | regcmd | window | ramwr
deriving DecidableEq, Repr

/-- An operand of an assembly line (R92): a number, a byte list in brackets, or a pixel list in braces. -/
inductive AsmOperand
  | num (n : Nat)
  | bytes (bs : List Nat)
  | pixels (ps : List Nat)
deriving DecidableEq, Repr

/-- One assembly line, `MNEMONIC operands` (R92). -/
structure AsmLine where
  name     : AsmName
  operands : List AsmOperand
deriving DecidableEq, Repr

end Sys2Proof
end

