-- ==== Sys2Proof/WellFormed.lean ====
section
/-! DEFINITION. Which instructions and which configurations are well formed. -/

namespace Sys2Proof

/-- A DATA payload fits the u32 length field (30_encoding.md R71, R72). -/
def payloadFits (payload : List Byte) : Bool := decide (payload.length < 2 ^ 32)

/-- "a list of exactly `2·w·h` bytes" (43_frame_memory_ops.md R167, 30_encoding.md R76). -/
def sourceFits (w h : Word16) (pix : List Byte) : Bool := decide (pix.length = 2 * w.toNat * h.toNat)

/-- An instruction whose operands the request encoding can carry (R71, R76). Every other operand field has its exact
width in its type. -/
def Instr.wf : Instr → Bool
  | .cmd _ => true
  | .data payload => payloadFits payload
  | .reset => true
  | .init => true
  | .present => true
  | .setpx _ _ _ => true
  | .getpx _ _ => true
  | .fill _ => true
  | .blit _ _ w h pix => sourceFits w h pix
  | .rgb565 _ _ _ => true
  | .swreset => true
  | .slpout => true
  | .dispon => true
  | .caset _ _ => true
  | .paset _ _ => true
  | .ramwr _ => true
  | .madctl _ => true

/-- "A configuration is **admitted** only if `1 ≤ W ≤ MAX_W` and `1 ≤ H ≤ MAX_H`" (00_scope.md R6). -/
def Cfg.admitted (c : Cfg) : Bool :=
  decide (1 ≤ c.w.toNat) && decide (c.w.toNat ≤ c.maxW) && decide (1 ≤ c.h.toNat) && decide (c.h.toNat ≤ c.maxH)

/-- `FB_INIT` is a "List u8 of length 2·W·H" (R5). -/
def Cfg.fbInitFits (c : Cfg) : Bool := decide (c.fbInit.length = c.nFb)

end Sys2Proof
end

