-- ==== Sys2Proof/Decode.lean ====
section
/-! DEFINITION. Byte order (20_memory.md R56), the request decoder and encoder (30_encoding.md R70 to R75), the wire
command decoder and encoder (R87 to R89), and the assembler (R92, R93). -/

namespace Sys2Proof

/-! ### Byte order: the most significant byte first (R56) -/

/-- `be16(v) = [v[15:8], v[7:0]]` (00_scope.md R9). -/
def be16 (v : Word16) : List Byte := [v.extractLsb' 8 8, v.extractLsb' 0 8]

/-- The u16 `{hi, lo}` (R57, R72). -/
def ofBe16 (hi lo : Byte) : Word16 := hi ++ lo

/-- The four bytes of a u32, the most significant first (R71). -/
def be32 (v : Word32) : List Byte :=
  [v.extractLsb' 24 8, v.extractLsb' 16 8, v.extractLsb' 8 8, v.extractLsb' 0 8]

/-- The u32 of four bytes, the first most significant (R71). -/
def ofBe32 (b3 b2 b1 b0 : Byte) : Word32 := b3 ++ b2 ++ b1 ++ b0

/-! ### The request opcode map (R73) -/

/-- The `OP` byte of a request (R73). -/
def ReqOp.code : ReqOp → Byte
  | .cmd => 0x01
  | .data => 0x02
  | .reset => 0x10
  | .init => 0x11
  | .present => 0x20
  | .setpx => 0x30
  | .getpx => 0x31
  | .fill => 0x32
  | .blit => 0x33
  | .rgb565 => 0x40

/-- The format of a request (R73). -/
def ReqOp.format : ReqOp → Format
  | .cmd => .f1
  | .data => .fl
  | .reset => .f0
  | .init => .f0
  | .present => .f0
  | .setpx => .fxyc
  | .getpx => .fxy
  | .fill => .fc
  | .blit => .frect
  | .rgb565 => .frgb

/-- "There are exactly ten request opcodes" (R73). -/
def ReqOp.all : List ReqOp :=
  [.cmd, .data, .reset, .init, .present, .setpx, .getpx, .fill, .blit, .rgb565]

/-- The request whose `OP` is this byte, if it is assigned (R73, R75). -/
def ReqOp.ofCode (b : Byte) : Option ReqOp := ReqOp.all.find? (fun o => o.code == b)

/-! ### Request decoding -/

/-- "The decoder finds a request's length from byte 0 alone, or from byte 0 and the fixed fields after it" (R74).
`none`: an unassigned opcode, or the fixed fields that give the length are not all there. -/
def requestLength : List Byte → Option Nat
  | [] => none
  | b :: rest =>
    match ReqOp.ofCode b with
    | none => none
    | some op =>
      match op.format with
      | .f0 => some 1
      | .f1 => some 2
      | .fc => some 3
      | .frgb => some 4
      | .fxy => some 5
      | .fxyc => some 7
      | .fl =>
        match rest with
        | l3 :: l2 :: l1 :: l0 :: _ => some (5 + (ofBe32 l3 l2 l1 l0).toNat)
        | _ => none
      | .frect =>
        match rest with
        | _ :: _ :: _ :: _ :: w1 :: w0 :: h1 :: h0 :: _ =>
          some (9 + 2 * (ofBe16 w1 w0).toNat * (ofBe16 h1 h0).toNat)
        | _ => none

/-- The first `n` bytes and the bytes after them, if there are that many. -/
def takeBytes (n : Nat) (bs : List Byte) : Option (List Byte × List Byte) :=
  if n ≤ bs.length then some (bs.take n, bs.drop n) else none

/-- The operand fields after `OP`, "taken exactly as stored" (R72), and the bytes after the request. `none` when the
string ends too early. -/
def decodeFields (op : ReqOp) (bs : List Byte) : Option (Instr × List Byte) :=
  match op with
  | .cmd =>
    match bs with
    | b :: rest => some (.cmd b, rest)
    | _ => none
  | .data =>
    match bs with
    | l3 :: l2 :: l1 :: l0 :: rest =>
      (takeBytes (ofBe32 l3 l2 l1 l0).toNat rest).map (fun p => (.data p.1, p.2))
    | _ => none
  | .reset => some (.reset, bs)
  | .init => some (.init, bs)
  | .present => some (.present, bs)
  | .setpx =>
    match bs with
    | x1 :: x0 :: y1 :: y0 :: c1 :: c0 :: rest => some (.setpx (ofBe16 x1 x0) (ofBe16 y1 y0) (ofBe16 c1 c0), rest)
    | _ => none
  | .getpx =>
    match bs with
    | x1 :: x0 :: y1 :: y0 :: rest => some (.getpx (ofBe16 x1 x0) (ofBe16 y1 y0), rest)
    | _ => none
  | .fill =>
    match bs with
    | c1 :: c0 :: rest => some (.fill (ofBe16 c1 c0), rest)
    | _ => none
  | .blit =>
    match bs with
    | x1 :: x0 :: y1 :: y0 :: w1 :: w0 :: h1 :: h0 :: rest =>
      (takeBytes (2 * (ofBe16 w1 w0).toNat * (ofBe16 h1 h0).toNat) rest).map (fun p =>
        (.blit (ofBe16 x1 x0) (ofBe16 y1 y0) (ofBe16 w1 w0) (ofBe16 h1 h0) p.1, p.2))
    | _ => none
  | .rgb565 =>
    match bs with
    | r :: g :: b :: rest => some (.rgb565 r g b, rest)
    | _ => none

/-- Decode one request from the front of a byte string (R70, R74, R75). DESIGN CHOICE (log 6): the bytes after the
request's own length are handed back. -/
def decode : List Byte → Decoded
  | [] => .truncated
  | b :: rest =>
    match ReqOp.ofCode b with
    | none => .unassigned b
    | some op =>
      match decodeFields op rest with
      | none => .truncated
      | some (i, more) => .ok i more

/-! ### Wire commands (R87) -/

/-- "software-reset opcode" (R87). -/
def opSwreset : Byte := 0x01
/-- "sleep-out" (R87). -/
def opSlpout : Byte := 0x11
/-- "display-on" (R87). -/
def opDispon : Byte := 0x29
/-- "Column-Address-Set" (R87). -/
def opCaset : Byte := 0x2A
/-- "Page-Address-Set" (R87). -/
def opPaset : Byte := 0x2B
/-- "Memory-Write" (R87). -/
def opRamwr : Byte := 0x2C

/-- Why a register command is no row of R87: its opcode is a row's, with other data, or it is no row's at all. -/
def wireReject (madctlOpcode op : Byte) : WireDecoded :=
  if op ∈ [opSwreset, opSlpout, opDispon, opCaset, opPaset, opRamwr, madctlOpcode] then .badData op else .other op

/-- A register command as its opcode byte and its data bytes, read as a row of R87. `madctlOpcode` is the parameter
`MADCTL_OPCODE`; where it is RAMWR's opcode, RAMWR is read (log 9). -/
def decodeWire (madctlOpcode : Byte) : List Byte → WireDecoded
  | [] => .empty
  | op :: bytes =>
    if op = opRamwr then .ok (.ramwr bytes)
    else
      match bytes with
      | [] =>
        if op = opSwreset then .ok .swreset
        else if op = opSlpout then .ok .slpout
        else if op = opDispon then .ok .dispon
        else wireReject madctlOpcode op
      | [b] => if op = madctlOpcode then .ok (.madctl b) else wireReject madctlOpcode op
      | [a1, a0, b1, b0] =>
        if op = opCaset then .ok (.caset (ofBe16 a1 a0) (ofBe16 b1 b0))
        else if op = opPaset then .ok (.paset (ofBe16 a1 a0) (ofBe16 b1 b0))
        else wireReject madctlOpcode op
      | _ => wireReject madctlOpcode op

/-! ### Encoding -/

/-- The bytes of an instruction: a request's byte string (R71, R73), or a wire command's opcode byte followed by its
data bytes (R87 to R89). -/
def encode (madctlOpcode : Byte) : Instr → List Byte
  | .cmd op => [ReqOp.cmd.code, op]
  | .data payload => ReqOp.data.code :: be32 (BitVec.ofNat 32 payload.length) ++ payload
  | .reset => [ReqOp.reset.code]
  | .init => [ReqOp.init.code]
  | .present => [ReqOp.present.code]
  | .setpx x y c => ReqOp.setpx.code :: be16 x ++ be16 y ++ be16 c
  | .getpx x y => ReqOp.getpx.code :: be16 x ++ be16 y
  | .fill c => ReqOp.fill.code :: be16 c
  | .blit x y w h pix => ReqOp.blit.code :: be16 x ++ be16 y ++ be16 w ++ be16 h ++ pix
  | .rgb565 r g b => [ReqOp.rgb565.code, r, g, b]
  | .swreset => [opSwreset]
  | .slpout => [opSlpout]
  | .dispon => [opDispon]
  | .caset cs ce => opCaset :: be16 cs ++ be16 ce
  | .paset rs re => opPaset :: be16 rs ++ be16 re
  | .ramwr burst => opRamwr :: burst
  | .madctl b => [madctlOpcode, b]

/-! ### A word of the opcode table as a request -/

/-- The bytes of a number whose bit 0 is the least significant bit of byte 0, padded with zeros to the longest fixed
part of a request (9 bytes, FRECT). -/
def wordBytes (nbits w : Nat) : List Byte :=
  (List.range (max (nbits / 8) 9)).map (fun k => if k < nbits / 8 then BitVec.ofNat 8 (w >>> (8 * k)) else 0)

/-- The request a table word stands for, as the byte string the host would hand over: its own length of bytes (R74),
zeros where the table gives none. An unassigned opcode has no length and stays as laid out. -/
def tableRequest (nbits w : Nat) : List Byte :=
  let bs := wordBytes nbits w
  match requestLength bs with
  | none => bs
  | some n => (bs ++ List.replicate (n - bs.length) 0).take n

/-- What the request decoder reads from a table word. The seven wire rows are no requests (R3, R87): their words are
read as the request with that `OP` or refused (R75, log 8). -/
def decodeTableWord (nbits w : Nat) : Option Instr :=
  match decode (tableRequest nbits w) with
  | .ok i _ => some i
  | .unassigned _ => none
  | .truncated => none

/-! ### The assembler (R92, R93) -/

/-- An operand that must be a u8. -/
def asmU8 (n : Nat) : Option Byte := if n < 256 then some (BitVec.ofNat 8 n) else none

/-- An operand that must be a u16. -/
def asmU16 (n : Nat) : Option Word16 := if n < 65536 then some (BitVec.ofNat 16 n) else none

/-- A byte list `[b0, b1, ...]` (R92). -/
def asmBytes : List Nat → Option (List Byte)
  | [] => some []
  | n :: ns =>
    match asmU8 n, asmBytes ns with
    | some b, some bs => some (b :: bs)
    | _, _ => none

/-- A pixel list, u16 each, row-major, high byte first (R92, R72). -/
def asmPixels : List Nat → Option (List Byte)
  | [] => some []
  | n :: ns =>
    match asmU16 n, asmPixels ns with
    | some p, some bs => some (be16 p ++ bs)
    | _, _ => none

/-- `REGCMD op, [bs]`: "`CMD op`, then `DATA [bs]` if `bs` is non-empty" (R93). -/
def pseudoRegcmd (op : Byte) (bs : List Byte) : List Instr :=
  if bs = [] then [.cmd op] else [.cmd op, .data bs]

/-- `WINDOW cs, ce, rs, re` (R93). -/
def pseudoWindow (cs ce rs re : Word16) : List Instr :=
  [.cmd 0x2A, .data (be16 cs ++ be16 ce), .cmd 0x2B, .data (be16 rs ++ be16 re)]

/-- `RAMWR [bs]` (R93). -/
def pseudoRamwr (bs : List Byte) : List Instr := [.cmd 0x2C, .data bs]

/-- The requests an assembly line stands for (R92, R93). `none`: the operands are not those of the mnemonic, or a
number does not fit its operand (DESIGN CHOICE, log 12). -/
def assemble (l : AsmLine) : Option (List Instr) :=
  match l.name with
  | .cmd =>
    match l.operands with
    | [.num op] => (asmU8 op).map (fun op => [.cmd op])
    | _ => none
  | .data =>
    match l.operands with
    | [.bytes bs] => (asmBytes bs).map (fun bs => [.data bs])
    | _ => none
  | .reset => if l.operands = [] then some [.reset] else none
  | .init => if l.operands = [] then some [.init] else none
  | .present => if l.operands = [] then some [.present] else none
  | .setpx =>
    match l.operands with
    | [.num x, .num y, .num c] =>
      match asmU16 x, asmU16 y, asmU16 c with
      | some x, some y, some c => some [.setpx x y c]
      | _, _, _ => none
    | _ => none
  | .getpx =>
    match l.operands with
    | [.num x, .num y] =>
      match asmU16 x, asmU16 y with
      | some x, some y => some [.getpx x y]
      | _, _ => none
    | _ => none
  | .fill =>
    match l.operands with
    | [.num c] => (asmU16 c).map (fun c => [.fill c])
    | _ => none
  | .blit =>
    match l.operands with
    | [.num x, .num y, .num w, .num h, .pixels ps] =>
      match asmU16 x, asmU16 y, asmU16 w, asmU16 h, asmPixels ps with
      | some x, some y, some w, some h, some pix => some [.blit x y w h pix]
      | _, _, _, _, _ => none
    | _ => none
  | .rgb565 =>
    match l.operands with
    | [.num r, .num g, .num b] =>
      match asmU8 r, asmU8 g, asmU8 b with
      | some r, some g, some b => some [.rgb565 r g b]
      | _, _, _ => none
    | _ => none
  | .regcmd =>
    match l.operands with
    | [.num op, .bytes bs] =>
      match asmU8 op, asmBytes bs with
      | some op, some bs => some (pseudoRegcmd op bs)
      | _, _ => none
    | _ => none
  | .window =>
    match l.operands with
    | [.num cs, .num ce, .num rs, .num re] =>
      match asmU16 cs, asmU16 ce, asmU16 rs, asmU16 re with
      | some cs, some ce, some rs, some re => some (pseudoWindow cs ce rs re)
      | _, _, _, _ => none
    | _ => none
  | .ramwr =>
    match l.operands with
    | [.bytes bs] => (asmBytes bs).map pseudoRamwr
    | _ => none

end Sys2Proof
end

