-- ==== Sys2Proof/Machine/State.lean ====
section
/-! DEFINITION. The state of one block instance (10_state.md rules R20 to R35), as plain data, and power-on (rules R35,
R230). The spec's own fields come first; the configuration and the model's own fields (inputs, outputs, the refused mark)
follow. -/

namespace Sys2Proof.Machine

/-- The five values of the controller state `st` (R23). -/
inductive CtrlState
  | uninitialized
  | resetting
  | configuring
  | ready
  | faulted
deriving DecidableEq, Repr

/-- The command/data line's two values (R22, R25). -/
inductive Mode
  | command
  | data
deriving DecidableEq, Repr

/-- One entry of the wire log (20_memory.md R54). -/
inductive Event
  /-- `CS(a)`: chip-select driven, `true` asserted. -/
  | cs (a : Bool)
  /-- `DC(m)`: the command/data line driven to mode `m`. -/
  | dc (m : Mode)
  /-- `BYTE(b)`: one byte shifted out on the SPI data line. -/
  | byte (b : Byte)
  /-- `RST(l)`: the reset line driven to level `l`. -/
  | rst (l : Level)
  /-- `DELAY(ms)`: a wait of at least `ms` milliseconds; a lower bound only (R55). -/
  | delay (ms : Nat)
deriving DecidableEq, Repr

/-- The four error kinds (60_exceptions.md R200). An error ends the running request; the machine goes on. -/
inductive Err
  | configuration
  | initialization
  | outOfBounds
  | busTransfer
deriving DecidableEq, Repr

/-- The four window registers (R27). -/
structure Window where
  colStart : Word16
  colEnd   : Word16
  rowStart : Word16
  rowEnd   : Word16
deriving DecidableEq, Repr

/-- The sequencer position (R28): idle between requests, else "which frame of the request's frame list is in progress
and how many of its bytes are out". Frames are counted from 0 (log 7). -/
inductive SeqPos
  | idle
  | busy (frame bytesOut : Nat)
deriving DecidableEq, Repr

/-- One block instance: the record of R22, its configuration, and the model's own fields. -/
structure State where
  /-- Controller state machine (R23, R30 to R33). -/
  st : CtrlState
  /-- Chip-select line, `true` = asserted (R24). -/
  cs : Bool
  /-- Command/data line, `none` = never driven (R25). -/
  dc : Option Mode
  /-- Hardware reset line, `none` if `HAS_RST = false` (R26). -/
  rst : Option Level
  /-- Window registers, `none` = never written (R27). -/
  win : Option Window
  /-- Frame memory `FB` (20_memory.md R50): the bytes that differ from `FB_INIT`, by address (log 5). -/
  fb : List Host.Cell
  /-- Wire log `LOG` (R54), oldest event first. -/
  log : List Event
  /-- Request pointer (R21). -/
  rp : Nat
  /-- Sequencer position (R28). -/
  seq : SeqPos
  /-- The configuration (00_scope.md R5), read-only after construction (R34, log 1). -/
  cfg : Cfg
  /-- Model's own: the byte strings the host has handed over and that have not run yet, oldest first (30_encoding.md
  R70, log 4). -/
  port : List (List Byte)
  /-- Model's own: the responses returned so far, oldest first (R80, log 4). -/
  resps : List (List Byte)
  /-- Model's own: the refused mark "that the run keeps" (60_exceptions.md R219, log 4). -/
  refused : Bool
  /-- Model's own: the environment's next bus-fault draws, one per frame (40_framer.md R104, log 3). -/
  draws : List BusDraw
  /-- Model's own: the number of the next free draw once `draws` is used up (log 3). -/
  drawNo : Nat
deriving DecidableEq, Repr

/-- Why the machine stops with a fault: it never does. The spec's four errors are next states (R209, R210), and no
request can address a byte that does not exist (20_memory.md R59, R63), so there is no constructor (log 13). -/
inductive Fault
deriving DecidableEq, Repr

/-- Why the model gives no meaning. -/
inductive Refusal
  /-- Raised by `exec` for an opcode-table row that has no meaning yet; safe. No arm raises it. -/
  | notModelled (mnemonic : String)
  /-- Raised by `State.powerOn` for a configuration outside R6: "no machine state exists for it" (R6, R219); safe. -/
  | configurationNotAdmitted
deriving DecidableEq, Repr

/-- The power-on value of every field, for a configuration (R31, R35, R230). The model's own fields start empty
(DESIGN CHOICE, log 3 and log 4). -/
def State.ofCfg (c : Cfg) : State where
  st := if c.hasDc && c.hasCs then .uninitialized else .faulted
  cs := false
  dc := none
  rst := if c.hasRst then some .high else none
  win := none
  fb := []
  log := []
  rp := 0
  seq := .idle
  cfg := c
  port := []
  resps := []
  refused := false
  draws := []
  drawNo := 0

/-- Power-on, the source's construction (R220, R230): a configuration that R6 does not admit is refused. -/
def State.powerOn (c : Cfg) : Host.Outcome State Fault Refusal :=
  if c.admitted then .next (State.ofCfg c) else .refused .configurationNotAdmitted

/-- The machine right after reset: the power-on state of the open instance `Config.cfg` (log 2). -/
def State.reset : State := State.ofCfg Config.cfg

end Sys2Proof.Machine
end

