-- ==== Sys2Proof/Machine/Flags.lean ====
section
/-! DEFINITION. The status values: the codes of `st` and of the errors, and the response byte made of them (10_state.md
rule R23, 30_encoding.md rule R80, 60_exceptions.md rule R200). -/

namespace Sys2Proof.Machine

/-- The code of `st` in a response (R23). -/
def CtrlState.code : CtrlState → BitVec 3
  | .uninitialized => 0
  | .resetting => 1
  | .configuring => 2
  | .ready => 3
  | .faulted => 4

/-- The `err` field: 0 is success (R80, R200). -/
def errCode : Option Err → BitVec 4
  | none => 0
  | some .configuration => 1
  | some .initialization => 2
  | some .outOfBounds => 3
  | some .busTransfer => 4

/-- The status byte `S`: `err` in bits 7..4, 0 in bit 3, `stc` in bits 2..0 (R80). -/
def statusByte (e : Option Err) (st : CtrlState) : Byte := errCode e ++ (0 : BitVec 1) ++ st.code

/-- A response: the status byte, and the u16 result of GETPX or RGB565, big-endian (R80). -/
def responseBytes (e : Option Err) (st : CtrlState) (value : Option Word16) : List Byte :=
  match value with
  | none => [statusByte e st]
  | some v => statusByte e st :: be16 v

end Sys2Proof.Machine
end

