-- ==== Sys2Proof/Machine/Operands.lean ====
section
/-! DEFINITION. What the requests compute from their operands: pixel addresses and bounds (20_memory.md rule R50,
43_frame_memory_ops.md), window validity (42_window_present.md rule R140) and RGB565 packing (rule R172). Arithmetic on
sizes and offsets is in unbounded naturals and never wraps (00_scope.md rule R8). -/

namespace Sys2Proof.Machine

/-- The byte address of the pixel at column `x` and row `y`: `2*(y*W + x)` (R50). -/
def pixelAddr (c : Cfg) (x y : Nat) : Nat := 2 * (y * c.w.toNat + x)

/-- `x < W` and `y < H` (R161, R163). -/
def pixelInside (c : Cfg) (x y : Word16) : Bool := decide (x.toNat < c.w.toNat) && decide (y.toNat < c.h.toNat)

/-- BLIT's four checks: `x < W`, `y < H`, `x + w ≤ W`, `y + h ≤ H` (R167 to R169). -/
def rectInside (c : Cfg) (x y w h : Word16) : Bool :=
  pixelInside c x y && decide (x.toNat + w.toNat ≤ c.w.toNat) && decide (y.toNat + h.toNat ≤ c.h.toNat)

/-- BLIT's source has exactly `2·w·h` bytes (30_encoding.md R76). -/
def blitSourceFits (w h : Word16) (pix : List Byte) : Bool := decide (pix.length = 2 * w.toNat * h.toNat)

/-- A window is valid exactly when `cs ≤ ce < W` and `rs ≤ re < H` (R140). -/
def Window.valid (c : Cfg) (win : Window) : Bool :=
  decide (win.colStart.toNat ≤ win.colEnd.toNat) && decide (win.colEnd.toNat < c.w.toNat)
    && decide (win.rowStart.toNat ≤ win.rowEnd.toNat) && decide (win.rowEnd.toNat < c.h.toNat)

/-- The number of pixels a window covers (R140). -/
def Window.pixels (win : Window) : Nat :=
  (win.colEnd.toNat - win.colStart.toNat + 1) * (win.rowEnd.toNat - win.rowStart.toNat + 1)

/-- The full-panel window `(0, W-1, 0, H-1)` (R143). -/
def fullWindow (c : Cfg) : Window where
  colStart := 0
  colEnd := c.w - 1
  rowStart := 0
  rowEnd := c.h - 1

/-- `{r[7:3], g[7:2], b[7:3]}` (R172). -/
def packRgb565 (r g b : Byte) : Word16 := r.extractLsb' 3 5 ++ g.extractLsb' 2 6 ++ b.extractLsb' 3 5

/-- The other level of a line (R85). -/
def otherLevel : Level → Level
  | .low => .high
  | .high => .low

end Sys2Proof.Machine
end

