-- ==== Sys2Proof/Machine/Memory.lean ====
section
/-! DEFINITION. The frame memory `FB` (20_memory.md rules R50 to R52): one byte, a run of bytes (`MemRead` and `MemWrite`
of 00_scope.md rule R9), one pixel, and the bulk writes of FILL and BLIT. The cells are the bytes that differ from
`FB_INIT`, at strictly rising addresses (log 5). -/

namespace Sys2Proof.Machine

/-- What an address that no cell lists reads as: its byte of `FB_INIT` (R51). Beyond `N_FB`, where no request reaches
(R59), it reads as 0. -/
def unlisted (c : Cfg) (a : Nat) : Byte := c.fbInit.getD a 0

/-- The byte at an address. -/
def readCell (c : Cfg) : List Host.Cell → Nat → Byte
  | [], a => unlisted c a
  | cell :: rest, a => if cell.1 = a then cell.2 else readCell c rest a

/-- One byte stored, in the canonical form: a byte equal to `FB_INIT`'s is not listed. -/
def writeCell (c : Cfg) : List Host.Cell → Nat → Byte → List Host.Cell
  | [], a, b => if b = unlisted c a then [] else [(a, b)]
  | cell :: rest, a, b =>
    if cell.1 < a then cell :: writeCell c rest a b
    else if cell.1 = a then (if b = unlisted c a then rest else (a, b) :: rest)
    else (if b = unlisted c a then cell :: rest else (a, b) :: cell :: rest)

/-- The addresses of the cells rise strictly. -/
def rising : List Host.Cell → Bool
  | [] => true
  | [_] => true
  | e :: f :: rest => decide (e.1 < f.1) && rising (f :: rest)

/-- The canonical form: strictly rising addresses, no cell equal to what its address reads as unlisted. -/
def Memory.wf (c : Cfg) (m : List Host.Cell) : Bool := rising m && m.all (fun e => e.2 != unlisted c e.1)

/-- Every listed address lies in `0 .. N_FB-1` (R50). -/
def Memory.inRange (c : Cfg) (m : List Host.Cell) : Bool := m.all (fun e => decide (e.1 < c.nFb))

/-- `MemWrite(a, n, bs)` with `n` the length of `bs` (R9). -/
def memWrite (c : Cfg) : List Host.Cell → Nat → List Byte → List Host.Cell
  | m, _, [] => m
  | m, a, b :: bs => memWrite c (writeCell c m a b) (a + 1) bs

/-- `MemRead(a, n)`: the bytes `FB[a] .. FB[a+n-1]` (R9). -/
def memRead (c : Cfg) (m : List Host.Cell) (a n : Nat) : List Byte :=
  (List.range n).map (fun k => readCell c m (a + k))

/-- The pixel whose bytes are at `a` and `a+1`, the high byte first (R57). -/
def readPixel (c : Cfg) (m : List Host.Cell) (a : Nat) : Word16 := ofBe16 (readCell c m a) (readCell c m (a + 1))

/-- `for p in 0 .. n-1: MemWrite(2*p, 2, be16(v))` (43_frame_memory_ops.md R165). -/
def fillPixels (c : Cfg) (v : Word16) (n : Nat) (m : List Host.Cell) : List Host.Cell :=
  (List.range n).foldl (fun m p => memWrite c m (2 * p) (be16 v)) m

/-- Row `j` of BLIT: for `i` in `0 .. w-1`, the two bytes of source pixel `j*w + i` go to pixel `(x+i, y+j)` (R167). -/
def blitRow (c : Cfg) (x y w j : Nat) (pix : List Byte) (m : List Host.Cell) : List Host.Cell :=
  (List.range w).foldl (fun m i =>
    memWrite c m (pixelAddr c (x + i) (y + j)) [pix.getD (2 * (j * w + i)) 0, pix.getD (2 * (j * w + i) + 1) 0]) m

/-- BLIT's rows `0 .. h-1` in order (R167). -/
def blitRect (c : Cfg) (x y w h : Nat) (pix : List Byte) (m : List Host.Cell) : List Host.Cell :=
  (List.range h).foldl (fun m j => blitRow c x y w j pix m) m

end Sys2Proof.Machine
end

