-- ==== Sys2Proof/Machine/Ops.lean ====
section
/-! DEFINITION. The named operations: one writer per piece of state, the environment's draws, the framer's primitive
`frame` (40_framer.md rule R100), the gates (60_exceptions.md rules R201, R202), taking an error and answering a request
(rules R206 to R210, 30_encoding.md rules R80, R81), refusing one (R219), and fetching the next one (R70). -/

namespace Sys2Proof.Machine

/-! ### One writer per piece of state -/

/-- `st <- v` (00_scope.md R9). -/
def State.setSt (s : State) (v : CtrlState) : State := { s with st := v }

/-- `emit*(es)` (R9): the events go to the end of `LOG`. -/
def State.emit (s : State) (es : List Event) : State := { s with log := s.log ++ es }

/-- `cs <- a ; emit CS(a)` (R24, R100). -/
def State.driveCs (s : State) (a : Bool) : State := { s with cs := a, log := s.log ++ [.cs a] }

/-- `dc <- some m ; emit DC(m)` (R25, R100). -/
def State.driveDc (s : State) (m : Mode) : State := { s with dc := some m, log := s.log ++ [.dc m] }

/-- `rst <- l ; emit RST(l)` (R26, R120). -/
def State.driveRst (s : State) (l : Level) : State := { s with rst := some l, log := s.log ++ [.rst l] }

/-- `win <- (cs, ce, rs, re)` (R27, R141). -/
def State.setWin (s : State) (v : Window) : State := { s with win := some v }

/-- The frame memory replaced by the result of a memory operation. -/
def State.setFb (s : State) (m : List Host.Cell) : State := { s with fb := m }

/-- The sequencer position (R28). -/
def State.setSeq (s : State) (p : SeqPos) : State := { s with seq := p }

/-- The next draw of the environment is used up (R104, log 3). -/
def State.dropDraw (s : State) : State :=
  match s.draws with
  | [] => { s with drawNo := s.drawNo + 1 }
  | _ :: ds => { s with draws := ds }

/-- The host's pending requests (R70). -/
def State.setPort (s : State) (p : List (List Byte)) : State := { s with port := p }

/-- "Returning it advances `rp` by 1" (R81); between requests `seq` is idle (R28). -/
def State.respond (s : State) (bytes : List Byte) : State :=
  { s with resps := s.resps ++ [bytes], rp := s.rp + 1, seq := .idle }

/-- A refused request "returns no response. It advances `rp` by 1 and leaves every other field of the state unchanged"
(R81), and sets "a refused mark that the run keeps" (R219). -/
def State.refuse (s : State) : State := { s with rp := s.rp + 1, refused := true }

/-- `delay(ms)` (R9, R55). -/
def State.delay (s : State) (ms : Nat) : State := s.emit [.delay ms]

/-! ### Electrical levels (00_scope.md R11, 10_state.md R24 to R26) -/

/-- The chip-select line's level. -/
def State.csLevel (s : State) : Level := if s.cs then s.cfg.csActiveLevel else otherLevel s.cfg.csActiveLevel

/-- The command/data line's level; `none`: any level (R25). -/
def State.dcLevel (s : State) : Option Level :=
  match s.dc with
  | none => none
  | some .command => some s.cfg.dcCommandLevel
  | some .data => some (otherLevel s.cfg.dcCommandLevel)

/-- The reset line's level; `none`: there is no such line (R26). -/
def State.rstLevel (s : State) : Option Level := s.rst

/-! ### Running a request: completed, or ended by `raise` (R9, R10) -/

/-- Where a stretch of a request ends. -/
inductive Res
  /-- It ran to its end. -/
  | ok (s : State)
  /-- It ended at a `raise e`; what was done before stays done. -/
  | raise (e : Err) (s : State)
deriving DecidableEq, Repr

/-- The next stretch runs only if the one before completed. -/
def Res.andThen (r : Res) (f : State → Res) : Res :=
  match r with
  | .ok s => f s
  | .raise e s => .raise e s

/-! ### The framer (40_framer.md R100 to R107) -/

/-- The draw the environment makes for the next frame (R104, log 3). -/
def State.nextDraw (s : State) : BusDraw :=
  match s.draws with
  | [] => Config.busDraw s.drawNo
  | d :: _ => d

/-- Where a draw makes a frame of `n` bytes fail: `bf = some k` with `0 ≤ k ≤ n` (R104). A `k` beyond `n` is met by no
step of the frame and fails nothing (log 3). -/
def faultAt (d : BusDraw) (n : Nat) : Option Nat :=
  match d.bf with
  | none => none
  | some k => if k ≤ n then some k else none

/-- The number of the frame that starts next in the running request (R28). -/
def SeqPos.nextFrame : SeqPos → Nat
  | .idle => 0
  | .busy frame _ => frame + 1

/-- `frame`'s opening: CS asserted, then DC at the frame's mode (R100, R246). -/
def State.openBracket (s : State) (m : Mode) : State :=
  ((s.setSeq (.busy s.seq.nextFrame 0)).driveCs true).driveDc m

/-- Bytes shifted out inside the open bracket, in order (R100). -/
def State.sendBytes (s : State) (bs : List Byte) : State :=
  (s.setSeq (match s.seq with | .idle => .idle | .busy f n => .busy f (n + bs.length))).emit (bs.map .byte)

/-- `busfault`: CS released and logged if `csf = false`, left asserted with no event if `csf = true` (R104). -/
def State.failBracket (s : State) (csf : Bool) : State := if csf then s else s.driveCs false

/-- `frame(m, bs)`: one chip-select bracket, or the part of it that a bus fault lets out (R100, R103, R104). -/
def frame (m : Mode) (bs : List Byte) (s : State) : Res :=
  match faultAt s.nextDraw bs.length with
  | none => .ok (((s.dropDraw.openBracket m).sendBytes bs).driveCs false)
  | some k => .raise .busTransfer (((s.dropDraw.openBracket m).sendBytes (bs.take k)).failBracket s.nextDraw.csf)

/-! ### Gates (60_exceptions.md R201, R202, R207) -/

/-- `if st = Faulted: raise ConfigurationError` (R201). -/
def faultedGate (s : State) : Res :=
  if s.st = .faulted then .raise .configuration s else .ok s

/-- `if st ≠ Ready: raise InitializationError` (R202). -/
def readyGate (s : State) : Res :=
  if s.st = .ready then .ok s else .raise .initialization s

/-- `draw_gate()` (43_frame_memory_ops.md R160); PRESENT opens with the same two checks (R143). -/
def drawGate (s : State) : Res := (faultedGate s).andThen readyGate

/-- A bounds check: `raise OutOfBoundsError` unless it holds (R203). -/
def boundsGate (inside : Bool) (s : State) : Res :=
  if inside then .ok s else .raise .outOfBounds s

/-! ### Answering a request -/

/-- Taking an error, the block's one exception mechanism (R205, R209): a BusTransferError sets `st` to Uninitialized
(R206), the others leave it; then the request ends and its response carries the code (R80). "An error saves no state,
switches no mode, jumps to no vector" (R209). -/
def State.takeError (s : State) (e : Err) : State :=
  let s' := if e = .busTransfer then s.setSt .uninitialized else s
  s'.respond (responseBytes (some e) s'.st none)

/-- The end of a request with no value: OK, or the error it raised (R80, R81). There is no return from an error: the
next request simply runs (R210). -/
def complete (r : Res) : State :=
  match r with
  | .ok s => s.respond (responseBytes none s.st none)
  | .raise e s => s.takeError e

/-- The end of GETPX or RGB565: OK with a u16 value, or the error (R80). -/
def completeWith (value : State → Word16) (r : Res) : State :=
  match r with
  | .ok s => s.respond (responseBytes none s.st (some (value s)))
  | .raise e s => s.takeError e

/-- The end of one wire command: the request it belongs to goes on, or its error ends that request (log 8). -/
def stage (r : Res) : State :=
  match r with
  | .ok s => s
  | .raise e s => s.takeError e

/-! ### Fetching the next request (R70, R75) -/

/-- What the host's port holds next. -/
inductive Fetched
  /-- No request is pending: "the block waits" (70_reset_and_hazards.md R230). -/
  | waiting
  /-- The next request is refused; this is the state after it. -/
  | refused (s : State)
  /-- The next request, and the state it runs in. -/
  | run (i : Instr) (s : State)
deriving DecidableEq, Repr

/-- The bytes after a request's own length stay at the port as the next byte string (log 6). -/
def keepRest (rest : List Byte) (port : List (List Byte)) : List (List Byte) :=
  if rest = [] then port else rest :: port

/-- Take the oldest byte string from the port and decode it (R70). An unassigned opcode and a truncated request are
refused (R75, R219). -/
def fetch (s : State) : Fetched :=
  match s.port with
  | [] => .waiting
  | bytes :: port =>
    match decode bytes with
    | .ok i rest => .run i (s.setPort (keepRest rest port))
    | .unassigned _ => .refused (s.setPort port).refuse
    | .truncated => .refused (s.setPort port).refuse

end Sys2Proof.Machine
end

