-- ==== Sys2Proof/Machine/FrameMemory.lean ====
section
/-! DEFINITION. The frame-memory requests SETPX, GETPX, FILL and BLIT and the conversion RGB565
(43_frame_memory_ops.md). None of them emits an event (rule R174). -/

namespace Sys2Proof.Machine

/-- SETPX (R161): gate, bounds, then `MemWrite(a, 2, be16(c))`. -/
def execSetpx (x y c : Word16) (s : State) : Host.Outcome State Fault Refusal :=
  .next (complete ((drawGate s).andThen fun s =>
    (boundsGate (pixelInside s.cfg x y) s).andThen fun s =>
    .ok (s.setFb (memWrite s.cfg s.fb (pixelAddr s.cfg x.toNat y.toNat) (be16 c)))))

/-- GETPX (R163): not gated on Ready; the value goes back in the response. -/
def execGetpx (x y : Word16) (s : State) : Host.Outcome State Fault Refusal :=
  .next (completeWith (fun s => readPixel s.cfg s.fb (pixelAddr s.cfg x.toNat y.toNat))
    ((faultedGate s).andThen (boundsGate (pixelInside s.cfg x y))))

/-- FILL (R165): every pixel of the frame memory. -/
def execFill (c : Word16) (s : State) : Host.Outcome State Fault Refusal :=
  .next (complete ((drawGate s).andThen fun s =>
    .ok (s.setFb (fillPixels s.cfg c (s.cfg.w.toNat * s.cfg.h.toNat) s.fb))))

/-- BLIT (R167 to R170): fail, never clip. A source of another length than `2·w·h` is refused before any check
(30_encoding.md R76, 60_exceptions.md R207). -/
def execBlit (x y w h : Word16) (pix : List Byte) (s : State) : Host.Outcome State Fault Refusal :=
  .next (if blitSourceFits w h pix then
    complete ((drawGate s).andThen fun s =>
      (boundsGate (rectInside s.cfg x y w h) s).andThen fun s =>
      .ok (s.setFb (blitRect s.cfg x.toNat y.toNat w.toNat h.toNat pix s.fb)))
  else s.refuse)

/-- RGB565 (R172): pure, not gated, answers even in Faulted. -/
def execRgb565 (r g b : Byte) (s : State) : Host.Outcome State Fault Refusal :=
  .next (completeWith (fun _ => packRgb565 r g b) (.ok s))

end Sys2Proof.Machine
end

