-- ==== Sys2Proof/Machine/Framer.lean ====
section
/-! DEFINITION. The framer's requests CMD and DATA (40_framer.md rules R101, R102). -/

namespace Sys2Proof.Machine

/-- CMD (R101): one command frame; gated on Faulted only. -/
def execCmd (op : Byte) (s : State) : Host.Outcome State Fault Refusal :=
  .next (complete ((faultedGate s).andThen (frame .command [op])))

/-- DATA (R102): one data frame of any length, 0 included; gated on Faulted only. DESIGN CHOICE (log 21): a payload of 2^32
bytes or more, which the u32 `len` cannot carry (30_encoding.md R72), is sent as one frame too. -/
def execData (payload : List Byte) (s : State) : Host.Outcome State Fault Refusal :=
  .next (complete ((faultedGate s).andThen (frame .data payload)))

end Sys2Proof.Machine
end

