-- ==== Sys2Proof/Machine/InitSeq.lean ====
section
/-! DEFINITION. The reset and init sequencer (41_init_sequencer.md): requests RESET and INIT, and the wire commands
SWRESET, MADCTL, SLPOUT and DISPON it emits. -/

namespace Sys2Proof.Machine

/-- `regcmd(op, p)`: a command frame, then a data frame if `p` is neither `none` nor empty (R124, 30_encoding.md R86). -/
def regcmd (op : Byte) (p : Option (List Byte)) (s : State) : Res :=
  match p with
  | none => frame .command [op] s
  | some [] => frame .command [op] s
  | some (b :: bs) => (frame .command [op] s).andThen (frame .data (b :: bs))

/-- A command frame and the wait the block keeps after it (70_reset_and_hazards.md R240, R241). -/
def commandThenDelay (op : Byte) (ms : Nat) (s : State) : Res :=
  (frame .command [op] s).andThen (fun s => .ok (s.delay ms))

/-- SWRESET and its settle delay (R120). -/
def sendSwreset (s : State) : Res := commandThenDelay opSwreset 50 s

/-- Sleep-out and its wait (R122). -/
def sendSlpout (s : State) : Res := commandThenDelay opSlpout 120 s

/-- Display-on and its wait (R122). -/
def sendDispon (s : State) : Res := commandThenDelay opDispon 50 s

/-- The memory-access-control command with its one byte (R123). -/
def sendMadctl (b : Byte) (s : State) : Res := regcmd s.cfg.madctlOpcode (some [b]) s

/-- The reset pulse on the hardware reset line (R120). -/
def pulseRst (s : State) : State := (((s.driveRst .low).delay 50).driveRst .high).delay 50

/-- `reset_step()` (R120). -/
def resetStep (s : State) : Res := if s.cfg.hasRst then .ok (pulseRst s) else sendSwreset s

/-- The table's register commands "verbatim and in order" (R125). -/
def replayTable : List RegCmd → State → Res
  | [], s => .ok s
  | rc :: rest, s => (regcmd rc.op rc.payload s).andThen (replayTable rest)

/-- RESET (R121). -/
def runReset (s : State) : Res :=
  (faultedGate s).andThen fun s =>
  (resetStep (s.setSt .resetting)).andThen fun s =>
  .ok (s.setSt .uninitialized)

/-- INIT's configuring phase: the table, then MADCTL with `ORIENT`, always last (R122, R123, R125). -/
def configurePanel (s : State) : Res :=
  (replayTable s.cfg.initTable s).andThen fun s => sendMadctl s.cfg.orient s

/-- INIT (R122). -/
def runInit (s : State) : Res :=
  (faultedGate s).andThen fun s =>
  (resetStep (s.setSt .resetting)).andThen fun s =>
  (configurePanel (s.setSt .configuring)).andThen fun s =>
  (sendSlpout s).andThen fun s =>
  (sendDispon s).andThen fun s =>
  .ok (s.setSt .ready)

/-- RESET (R121). -/
def execReset (s : State) : Host.Outcome State Fault Refusal := .next (complete (runReset s))

/-- INIT (R122). -/
def execInit (s : State) : Host.Outcome State Fault Refusal := .next (complete (runInit s))

/-- SWRESET (R120): the wire command with the wait that follows it. DESIGN CHOICE (log 22): so also on a block with a reset
line, which never emits it (30_encoding.md R87). -/
def execSwreset (s : State) : Host.Outcome State Fault Refusal :=
  .next (stage ((faultedGate s).andThen sendSwreset))

/-- SLPOUT (R122). -/
def execSlpout (s : State) : Host.Outcome State Fault Refusal :=
  .next (stage ((faultedGate s).andThen sendSlpout))

/-- DISPON (R122). -/
def execDispon (s : State) : Host.Outcome State Fault Refusal :=
  .next (stage ((faultedGate s).andThen sendDispon))

/-- MADCTL (R123): the opcode is the parameter `MADCTL_OPCODE`; INIT sends `ORIENT`. DESIGN CHOICE (log 22): any other byte
is sent too. -/
def execMadctl (b : Byte) (s : State) : Host.Outcome State Fault Refusal :=
  .next (stage ((faultedGate s).andThen (sendMadctl b)))

end Sys2Proof.Machine
end

