-- ==== Sys2Proof/Machine/Present.lean ====
section
/-! DEFINITION. The window decoder and the write sequencer (42_window_present.md): request PRESENT, and the wire commands
CASET, PASET and RAMWR it emits. -/

namespace Sys2Proof.Machine

/-- Column-Address-Set and its four data bytes (R141, 30_encoding.md R88). -/
def sendCaset (cs ce : Word16) (s : State) : Res :=
  (frame .command [opCaset] s).andThen (frame .data (be16 cs ++ be16 ce))

/-- Page-Address-Set and its four data bytes (R141, R88). -/
def sendPaset (rs re : Word16) (s : State) : Res :=
  (frame .command [opPaset] s).andThen (frame .data (be16 rs ++ be16 re))

/-- `ram_write(bs)`: Memory-Write and one data burst, in two brackets with no frame between (R142). -/
def ramWrite (bs : List Byte) (s : State) : Res :=
  (frame .command [opRamwr] s).andThen (frame .data bs)

/-- `set_window(cs, ce, rs, re)` (R141): `win` is written before the CASET frame and keeps the value. -/
def setWindow (v : Window) (s : State) : Res :=
  (boundsGate (v.valid s.cfg) s).andThen fun s =>
  (sendCaset v.colStart v.colEnd (s.setWin v)).andThen (sendPaset v.rowStart v.rowEnd)

/-- All of `FB`, in ascending address order (30_encoding.md R89). -/
def State.frameBytes (s : State) : List Byte := memRead s.cfg s.fb 0 s.cfg.nFb

/-- PRESENT (R143). -/
def runPresent (s : State) : Res :=
  (drawGate s).andThen fun s =>
  (setWindow (fullWindow s.cfg) s).andThen fun s =>
  ramWrite s.frameBytes s

/-- PRESENT (R143). -/
def execPresent (s : State) : Host.Outcome State Fault Refusal := .next (complete (runPresent s))

/-- CASET (R141). DESIGN CHOICE (log 22): any two values are sent, and outside Ready too. -/
def execCaset (cs ce : Word16) (s : State) : Host.Outcome State Fault Refusal :=
  .next (stage ((faultedGate s).andThen (sendCaset cs ce)))

/-- PASET (R141). DESIGN CHOICE (log 22): any two values are sent, and outside Ready too. -/
def execPaset (rs re : Word16) (s : State) : Host.Outcome State Fault Refusal :=
  .next (stage ((faultedGate s).andThen (sendPaset rs re)))

/-- RAMWR (R142). DESIGN CHOICE (log 22): a burst of any length is sent, and outside Ready too. -/
def execRamwr (burst : List Byte) (s : State) : Host.Outcome State Fault Refusal :=
  .next (stage ((faultedGate s).andThen (ramWrite burst)))

end Sys2Proof.Machine
end

