-- ==== Sys2Proof/Machine/Dispatch.lean ====
section
/-! DEFINITION. One arm per row of spec/opcode_table.json. -/

namespace Sys2Proof.Machine

def exec (i : Instr) (s : State) : Host.Outcome State Fault Refusal :=
  match i with
  | .cmd op => Sys2Proof.Machine.execCmd op s
  | .data payload => Sys2Proof.Machine.execData payload s
  | .reset => Sys2Proof.Machine.execReset s
  | .init => Sys2Proof.Machine.execInit s
  | .present => Sys2Proof.Machine.execPresent s
  | .setpx x y c => Sys2Proof.Machine.execSetpx x y c s
  | .getpx x y => Sys2Proof.Machine.execGetpx x y s
  | .fill c => Sys2Proof.Machine.execFill c s
  | .blit x y w h pix => Sys2Proof.Machine.execBlit x y w h pix s
  | .rgb565 r g b => Sys2Proof.Machine.execRgb565 r g b s
  | .swreset => Sys2Proof.Machine.execSwreset s
  | .slpout => Sys2Proof.Machine.execSlpout s
  | .dispon => Sys2Proof.Machine.execDispon s
  | .caset colStart colEnd => Sys2Proof.Machine.execCaset colStart colEnd s
  | .paset rowStart rowEnd => Sys2Proof.Machine.execPaset rowStart rowEnd s
  | .ramwr burst => Sys2Proof.Machine.execRamwr burst s
  | .madctl b => Sys2Proof.Machine.execMadctl b s

end Sys2Proof.Machine
end

