-- ==== Sys2Proof/Machine/Step.lean ====
section
/-! DEFINITION. One step is one whole request (00_scope.md rule R10, 20_memory.md rule R60): the next one at the host's
port is fetched, decoded and run to its response. With none pending the block waits (70_reset_and_hazards.md R230). -/

namespace Sys2Proof.Machine

/-- One request, or a wait. -/
def step (s : State) : Host.Outcome State Fault Refusal :=
  match fetch s with
  | .waiting => .next s
  | .refused s' => .next s'
  | .run i s' => exec i s'

/-- The state with a table word handed over by the host as its next request, before anything else at the port (log 14). -/
def State.withFetchWord (s : State) (nbits w : Nat) : State := s.setPort (tableRequest nbits w :: s.port)

end Sys2Proof.Machine
end

