-- ==== Sys2Proof/Safety.lean ====
section
/-! DEFINITION. The terms claims are stated in: the event lists of 30_encoding.md rule R85, 41_init_sequencer.md rule R126
and 42_window_present.md rule R144, written from those rules and not from the operations; the environment's draws ahead;
what the wire log says of the lines; the bracket discipline of 40_framer.md rule R105; and the invariant every request
keeps. -/

namespace Sys2Proof.Machine

/-! ### Event lists -/

/-- `C(op)` (R126): a command frame. -/
def commandFrame (op : Byte) : List Event := [.cs true, .dc .command, .byte op, .cs false]

/-- `D(bs)` (R126): a data frame. -/
def dataFrame (bs : List Byte) : List Event := [.cs true, .dc .data] ++ bs.map .byte ++ [.cs false]

/-- What a frame leaves in `LOG` when it fails after `k` bytes (40_framer.md R104). -/
def failedFrame (m : Mode) (bs : List Byte) (k : Nat) (csf : Bool) : List Event :=
  [.cs true, .dc m] ++ (bs.take k).map .byte ++ (if csf then [] else [.cs false])

/-- `C(op) ++ (if p ≠ none ∧ p ≠ [] then D(p) else [])` (R126). -/
def regcmdEvents (rc : RegCmd) : List Event :=
  commandFrame rc.op ++ (match rc.payload with
    | none => []
    | some p => if p = [] then [] else dataFrame p)

/-- `RESETPART` (R126). -/
def resetEvents (c : Cfg) : List Event :=
  if c.hasRst then [.rst .low, .delay 50, .rst .high, .delay 50] else commandFrame 0x01 ++ [.delay 50]

/-- The full event list of an INIT that meets no bus fault (R126). -/
def initEvents (c : Cfg) : List Event :=
  resetEvents c ++ (c.initTable.flatMap regcmdEvents) ++ (commandFrame c.madctlOpcode ++ dataFrame [c.orient])
    ++ (commandFrame 0x11 ++ [.delay 120]) ++ (commandFrame 0x29 ++ [.delay 50])

/-- The full event list of a PRESENT that meets no bus fault (R144). -/
def presentEvents (c : Cfg) (fbBytes : List Byte) : List Event :=
  commandFrame 0x2A ++ dataFrame ([0x00, 0x00] ++ be16 (c.w - 1))
    ++ (commandFrame 0x2B ++ dataFrame ([0x00, 0x00] ++ be16 (c.h - 1)))
    ++ (commandFrame 0x2C ++ dataFrame fbBytes)

/-- How many frames a register command takes (R124). -/
def regcmdFrames (rc : RegCmd) : Nat :=
  match rc.payload with
  | none => 1
  | some p => if p = [] then 1 else 2

/-- How many frames the reset step takes (R120). -/
def resetFrames (c : Cfg) : Nat := if c.hasRst then 0 else 1

/-- How many frames INIT takes (R126). -/
def initFrames (c : Cfg) : Nat := resetFrames c + (c.initTable.map regcmdFrames).sum + 4

/-! ### The draws ahead (40_framer.md R104) -/

/-- The draw of the `i`-th frame from here on. -/
def State.drawAt (s : State) (i : Nat) : BusDraw :=
  match s.draws[i]? with
  | some d => d
  | none => Config.busDraw (s.drawNo + (i - s.draws.length))

/-- The state once the draws of `n` frames are used up. -/
def State.dropDraws (s : State) (n : Nat) : State :=
  { s with draws := s.draws.drop n, drawNo := s.drawNo + (n - s.draws.length) }

/-- "`bf = none` for every frame" of the next `n` (R104). -/
abbrev State.noBusFault (s : State) (n : Nat) : Prop := ∀ i, i < n → (s.drawAt i).bf = none

/-! ### What a frame and an answer leave -/

/-- The state after a frame that completed (R100): "it writes `cs` and `dc` and no other state" than `LOG`, the sequencer
position and the draw it used. -/
def afterFrame (m : Mode) (bs : List Byte) (s : State) : State :=
  { s.dropDraws 1 with
    cs := false
    dc := some m
    log := s.log ++ ([.cs true, .dc m] ++ bs.map .byte ++ [.cs false])
    seq := .busy s.seq.nextFrame bs.length }

/-- The state after a frame that failed after `k` bytes (R104). -/
def afterFault (m : Mode) (bs : List Byte) (k : Nat) (s : State) : State :=
  { s.dropDraws 1 with
    cs := (s.drawAt 0).csf
    dc := some m
    log := s.log ++ failedFrame m bs k (s.drawAt 0).csf
    seq := .busy s.seq.nextFrame (bs.take k).length }

/-- A bus fault in a stretch whose full event list is `es` (R104; 60_exceptions.md R206, R207): the frames `before` were sent
whole, each with its one `CS(true)`, so the next draw in turn failed the frame of mode `m` and bytes `bs` after `k` bytes
and set CS; DC keeps that frame's mode, and nothing of `es` after that point was sent. -/
def FrameFailed (s t : State) (es : List Event) : Prop :=
  ∃ (before : List Event) (m : Mode) (bs : List Byte) (k : Nat),
    before ++ ([.cs true, .dc m] ++ bs.map .byte ++ [.cs false]) <+: es ∧ k ≤ bs.length ∧
    s.drawAt (before.count (.cs true)) = ⟨some k, t.cs⟩ ∧ t.dc = some m ∧
    t.log = s.log ++ before ++ failedFrame m bs k t.cs

/-- The state after a request answered with these bytes and had no other effect (30_encoding.md R80, R81). -/
def State.answered (s : State) (bytes : List Byte) : State :=
  { s with rp := s.rp + 1, seq := .idle, resps := s.resps ++ [bytes] }

/-- The state after a refused request (R81, 60_exceptions.md R219). -/
def State.refusedOnce (s : State) : State := { s with rp := s.rp + 1, refused := true }

/-- Several requests, one after another. -/
def execAll : List Instr → State → Host.Outcome State Fault Refusal
  | [], s => .next s
  | i :: is, s =>
    match exec i s with
    | .next t => execAll is t
    | .fault r => .fault r
    | .refused r => .refused r

/-- The full event list of an instruction that meets no error, in the state it starts in. -/
def fullEvents (s : State) : Instr → List Event
  | .cmd op => commandFrame op
  | .data payload => dataFrame payload
  | .reset => resetEvents s.cfg
  | .init => initEvents s.cfg
  | .present => presentEvents s.cfg (memRead s.cfg s.fb 0 s.cfg.nFb)
  | .setpx _ _ _ => []
  | .getpx _ _ => []
  | .fill _ => []
  | .blit _ _ _ _ _ => []
  | .rgb565 _ _ _ => []
  | .swreset => commandFrame 0x01 ++ [.delay 50]
  | .slpout => commandFrame 0x11 ++ [.delay 120]
  | .dispon => commandFrame 0x29 ++ [.delay 50]
  | .caset cs ce => commandFrame 0x2A ++ dataFrame (be16 cs ++ be16 ce)
  | .paset rs re => commandFrame 0x2B ++ dataFrame (be16 rs ++ be16 re)
  | .ramwr burst => commandFrame 0x2C ++ dataFrame burst
  | .madctl b => commandFrame s.cfg.madctlOpcode ++ dataFrame [b]

/-! ### What the log says of the lines (20_memory.md R54) -/

/-- Chip-select after one more event. -/
def csAfter (a : Bool) : Event → Bool
  | .cs b => b
  | _ => a

/-- Chip-select as the events left it, deasserted at power-on. -/
def lastCs (log : List Event) : Bool := log.foldl csAfter false

/-- The command/data line after one more event. -/
def dcAfter (a : Option Mode) : Event → Option Mode
  | .dc m => some m
  | _ => a

/-- The command/data line as the events left it. -/
def lastDc (log : List Event) : Option Mode := log.foldl dcAfter none

/-- Where in a chip-select bracket the wire stands. -/
inductive Bracket
  /-- Outside any bracket. -/
  | closed
  /-- `CS(true)` was the last event. -/
  | opened
  /-- DC is set and bytes may follow. -/
  | carrying
deriving DecidableEq, Repr

/-- The bracket discipline (R105): `DC` right after `CS(true)`, bytes only after `DC`, then `CS(false)`. With `strict`
false a bracket that a bus fault left asserted may also be followed by a new `CS(true)` (R106) or by reset-line and delay
events. -/
def bracketStep (strict : Bool) (b : Bracket) (e : Event) : Option Bracket :=
  match b, e with
  | .closed, .cs true => some .opened
  | .closed, .rst _ => some .closed
  | .closed, .delay _ => some .closed
  | .opened, .dc _ => some .carrying
  | .carrying, .byte _ => some .carrying
  | .carrying, .cs false => some .closed
  | .carrying, .cs true => if strict then none else some .opened
  | .carrying, .rst _ => if strict then none else some .carrying
  | .carrying, .delay _ => if strict then none else some .carrying
  | _, _ => none

/-- The bracket a list of events leaves, from `b`; `none` if it breaks the discipline. -/
def bracketRun (strict : Bool) : Bracket → List Event → Option Bracket
  | b, [] => some b
  | b, e :: es =>
    match bracketStep strict b e with
    | none => none
    | some b' => bracketRun strict b' es

/-- Every reset-line event is followed at once by a wait of at least 50 ms (70_reset_and_hazards.md R240). -/
def rstSettled : List Event → Bool
  | [] => true
  | .rst _ :: rest =>
    match rest with
    | .delay ms :: _ => decide (50 ≤ ms) && rstSettled rest
    | _ => false
  | _ :: rest => rstSettled rest

/-! ### The invariant -/

/-- What holds between two requests of a machine that power-on made. -/
structure State.Inv (s : State) : Prop where
  /-- The configuration is admitted (00_scope.md R6) and `FB_INIT` has `N_FB` bytes (R5). -/
  admitted : s.cfg.admitted = true
  fbInitFits : s.cfg.fbInitFits = true
  /-- The frame memory is canonical and lists no address outside `0 .. N_FB-1` (20_memory.md R50). -/
  fbCanonical : Memory.wf s.cfg s.fb = true
  fbInRange : Memory.inRange s.cfg s.fb = true
  /-- `st ∈ {Uninitialized, Ready, Faulted}` (10_state.md R32), and Faulted exactly when a required line is absent (R31,
  R33). -/
  stResting : s.st ∈ [CtrlState.uninitialized, CtrlState.ready, CtrlState.faulted]
  stFaulted : s.st = .faulted ↔ (s.cfg.hasDc && s.cfg.hasCs) = false
  /-- The reset line, if present, is High (R26, R230). -/
  rstHigh : s.rst = if s.cfg.hasRst then some .high else none
  /-- A written window is valid (R27). -/
  winValid : ∀ v, s.win = some v → v.valid s.cfg = true
  /-- The sequencer is idle (R28). -/
  seqIdle : s.seq = .idle
  /-- CS and DC are what the log last drove (R24, R25, R54). -/
  csLogged : s.cs = lastCs s.log
  dcLogged : s.dc = lastDc s.log
  /-- Every byte on the wire lies after a `DC` inside a bracket (R105, R106); the bracket is open exactly while CS is
  asserted. -/
  gated : bracketRun false .closed s.log = some (if s.cs then .carrying else .closed)

end Sys2Proof.Machine
end

