-- ==== Sys2Proof/Certificates/Slice0/Obligations.lean ====
section
/-! DEFINITION. The statements for the provers. Each docstring names the rules of spec/ it rests on. A free value (a
bus-fault draw that `State.draws` does not list, an open byte of `FB_INIT`) is nowhere assumed to have a value. -/

open Sys2Proof
open Sys2Proof.Machine

/-! ### Encoding and decoding -/

/-- Every well-formed request decodes from its own encoding, whatever bytes follow it (30_encoding.md R70 to R74). -/
def Obligations.RequestDecodeInvertsEncode : Prop :=
  ∀ (mad : Byte) (i : Instr) (rest : List Byte), i.isRequest = true → i.wf = true →
    decode (encode mad i ++ rest) = .ok i rest

/-- A decoded request is a well-formed request, and the bytes it was read from are exactly its encoding and no more, of
the length R74 gives (R70 to R74): no bit of a request is dropped. -/
def Obligations.DecodedBytesAreTheEncoding : Prop :=
  ∀ (mad : Byte) (bs rest : List Byte) (i : Instr), decode bs = .ok i rest →
    i.isRequest = true ∧ i.wf = true ∧ bs = encode mad i ++ rest ∧ requestLength bs = some (encode mad i).length

/-- A wire command is read back from its opcode and data bytes (30_encoding.md R87 to R89). That the wire is decoded at all,
and that an opcode of 0x2C reads as RAMWR where `MADCTL_OPCODE` is 0x2C too, so that MADCTL is excepted there, is the model's
choice (log 9): the block decodes no wire command (00_scope.md R3). -/
def Obligations.WireDecodeInvertsEncode : Prop :=
  ∀ (mad : Byte) (i : Instr), i.isRequest = false → (mad ≠ 0x2C ∨ ∀ b, i ≠ .madctl b) →
    decodeWire mad (encode mad i) = .ok i

/-- The request lengths of R74, opcode by opcode. -/
def Obligations.RequestLengths : Prop :=
  ∀ rest : List Byte,
    (∀ op ∈ ([0x10, 0x11, 0x20] : List Byte), requestLength (op :: rest) = some 1) ∧
    requestLength (0x01 :: rest) = some 2 ∧
    requestLength (0x32 :: rest) = some 3 ∧
    requestLength (0x40 :: rest) = some 4 ∧
    requestLength (0x31 :: rest) = some 5 ∧
    requestLength (0x30 :: rest) = some 7 ∧
    (∀ l3 l2 l1 l0 : Byte, requestLength (0x02 :: l3 :: l2 :: l1 :: l0 :: rest)
      = some (5 + (l3.toNat * 2 ^ 24 + l2.toNat * 2 ^ 16 + l1.toNat * 2 ^ 8 + l0.toNat))) ∧
    (∀ x1 x0 y1 y0 w1 w0 h1 h0 : Byte, requestLength (0x33 :: x1 :: x0 :: y1 :: y0 :: w1 :: w0 :: h1 :: h0 :: rest)
      = some (9 + 2 * (w1.toNat * 2 ^ 8 + w0.toNat) * (h1.toNat * 2 ^ 8 + h0.toNat)))

/-- Words written out in 95_test_vectors.md section 2.1 (V-ENC-1 to V-ENC-12) decode to the requests they stand for. -/
def Obligations.SpecWordsDecode : Prop :=
  decode [0x01, 0x29] = .ok (.cmd 0x29) [] ∧
  decode [0x02, 0x00, 0x00, 0x00, 0x04, 0x00, 0x00, 0x00, 0xEF] = .ok (.data [0x00, 0x00, 0x00, 0xEF]) [] ∧
  decode [0x02, 0x00, 0x00, 0x00, 0x00] = .ok (.data []) [] ∧
  decode [0x10] = .ok .reset [] ∧
  decode [0x11] = .ok .init [] ∧
  decode [0x20] = .ok .present [] ∧
  decode [0x30, 0x00, 0x01, 0x00, 0x02, 0xF8, 0x00] = .ok (.setpx 1 2 0xF800) [] ∧
  decode [0x31, 0x00, 0x03, 0x00, 0x03] = .ok (.getpx 3 3) [] ∧
  decode [0x32, 0x07, 0xE0] = .ok (.fill 0x07E0) [] ∧
  decode [0x33, 0x00, 0x02, 0x00, 0x03, 0x00, 0x02, 0x00, 0x01, 0x12, 0x34, 0x56, 0x78]
    = .ok (.blit 2 3 2 1 [0x12, 0x34, 0x56, 0x78]) [] ∧
  decode [0x33, 0x00, 0x00, 0x00, 0x00, 0x00, 0x00, 0x00, 0x00] = .ok (.blit 0 0 0 0 []) [] ∧
  decode [0x40, 0x08, 0x04, 0x08] = .ok (.rgb565 8 4 8) []

/-! ### The step -/

/-- When the oldest byte string at the port decodes, a step is `exec` of that request with the string taken from the port
(30_encoding.md R70). Two clauses are the model's choice: bytes after the request stay at the port (log 6), and with nothing
at the port a step changes nothing, in every state (log 15: 70_reset_and_hazards.md R230 has the block wait after power-on,
and no rule says what a step is while it waits). -/
def Obligations.StepRunsTheDecodedRequest : Prop :=
  (∀ (s : State) (bytes rest : List Byte) (port : List (List Byte)) (i : Instr), s.port = bytes :: port →
    decode bytes = .ok i rest → step s = exec i { s with port := if rest = [] then port else rest :: port }) ∧
  (∀ s : State, s.port = [] → step s = .next s)

/-- R75: every unassigned `OP` value and every byte string that ends before its request's length is refused. The block
answers nothing, sets the refused mark, counts the request, and changes no other field (R81, R219). That the byte string
leaves the port whole is the model's choice (log 4). -/
def Obligations.UnassignedAndTruncatedRequestsAreRefused : Prop :=
  ∀ (s : State) (bytes : List Byte) (port : List (List Byte)), s.port = bytes :: port →
    ((∃ (op : Byte) (rest : List Byte), bytes = op :: rest ∧
        op ∉ ([0x01, 0x02, 0x10, 0x11, 0x20, 0x30, 0x31, 0x32, 0x33, 0x40] : List Byte)) ∨
      ¬ ∃ n, requestLength bytes = some n ∧ n ≤ bytes.length) →
    step s = .next { s with port := port, rp := s.rp + 1, refused := true }

/-- Every request advances `rp` by exactly 1 (10_state.md R21), whatever becomes of it; so does every step with a request
pending. -/
def Obligations.EveryRequestAdvancesTheRequestPointer : Prop :=
  (∀ (s t : State) (i : Instr), i.isRequest = true → exec i s = .next t → t.rp = s.rp + 1) ∧
  (∀ s t : State, s.port ≠ [] → step s = .next t → t.rp = s.rp + 1)

/-- No request ends the machine (60_exceptions.md R210: "An error response does not stop the request stream"): every run of
any length, from any state, answers a next state. -/
def Obligations.NoRunEverStops : Prop :=
  ∀ (k : Nat) (s : State), ∃ t : State, Host.Core.run Sys2Proof.core k s = .next t

/-! ### The framer -/

/-- CMD (40_framer.md R101). Faulted: ConfigurationError, no event. Else one command frame with `op` verbatim and OK, or,
if the frame's draw fails it after `k` bytes, what was sent until then and BusTransferError. That a draw with `k > 1`, which
R104's law excludes, fails nothing is the model's choice (log 3). -/
def Obligations.CmdSendsOneCommandFrame : Prop :=
  ∀ (s : State) (op : Byte),
    (s.st = .faulted → exec (.cmd op) s = .next (s.answered [0x14])) ∧
    (s.st ≠ .faulted → (∀ k, (s.drawAt 0).bf = some k → 1 < k) →
      exec (.cmd op) s = .next ((afterFrame .command [op] s).answered [statusByte none s.st])) ∧
    (s.st ≠ .faulted → ∀ k, (s.drawAt 0).bf = some k → k ≤ 1 →
      exec (.cmd op) s = .next (State.answered { afterFault .command [op] k s with st := .uninitialized } [0x40]))

/-- DATA (40_framer.md R102), of any length: one data frame, the empty bracket if the payload is empty. That a draw beyond the
payload's length, which R104's law excludes, fails nothing is the model's choice (log 3), and so is one frame for a payload
of 2^32 bytes or more, which no request encodes (log 21). -/
def Obligations.DataSendsOneBurst : Prop :=
  ∀ (s : State) (payload : List Byte),
    (s.st = .faulted → exec (.data payload) s = .next (s.answered [0x14])) ∧
    (s.st ≠ .faulted → (∀ k, (s.drawAt 0).bf = some k → payload.length < k) →
      exec (.data payload) s = .next ((afterFrame .data payload s).answered [statusByte none s.st])) ∧
    (s.st ≠ .faulted → ∀ k, (s.drawAt 0).bf = some k → k ≤ payload.length →
      exec (.data payload) s = .next (State.answered { afterFault .data payload k s with st := .uninitialized } [0x40]))

/-- What an instruction adds to `LOG` (20_memory.md R54, 10_state.md R28): nothing, its full event list, or, with
BusTransferError, a part of that list from its start, closed by `CS(false)` unless CS is left asserted. Nothing logged is
ever taken back, reordered or repeated. -/
def Obligations.EveryInstructionLogsItsEventsOrAPartOfThem : Prop :=
  ∀ (s t : State) (i : Instr), exec i s = .next t →
    t.log = s.log ∨ t.log = s.log ++ fullEvents s i ∨
    (t.st = .uninitialized ∧ t.resps = s.resps ++ [[0x40]] ∧
      ∃ p, p <+: fullEvents s i ∧ t.log = s.log ++ p ++ (if t.cs then [] else [.cs false]))

/-- The gating invariant (40_framer.md R105): a log in which every byte lies in a bracket, after its one `DC`, and brackets
do not nest, stays so under every instruction that does not end with CS asserted (it does so only by a bus fault, R106). -/
def Obligations.BracketsNeverNestNorOverlap : Prop :=
  ∀ (s t : State) (i : Instr), exec i s = .next t → bracketRun true .closed s.log = some .closed → t.cs = false →
    bracketRun true .closed t.log = some .closed

/-- The electrical levels after a completed frame (10_state.md R24, R25, 30_encoding.md R85). -/
def Obligations.LevelsAfterARawFrame : Prop :=
  ∀ s : State, s.st ≠ .faulted → s.noBusFault 1 →
    (∀ op, ∃ t, exec (.cmd op) s = .next t ∧ t.csLevel = otherLevel s.cfg.csActiveLevel ∧
      t.dcLevel = some s.cfg.dcCommandLevel) ∧
    (∀ payload, ∃ t, exec (.data payload) s = .next t ∧ t.csLevel = otherLevel s.cfg.csActiveLevel ∧
      t.dcLevel = some (otherLevel s.cfg.dcCommandLevel))

/-! ### Reset and init -/

/-- RESET (41_init_sequencer.md R121, R120). Faulted: ConfigurationError. With a reset line: the pulse, never a bus fault.
Without one: SWRESET and its delay, or BusTransferError after `k` bytes of that frame. It leaves the block
Uninitialized, and no field but those named changes. That a draw with `k > 1`, which R104's law excludes, fails nothing is the
model's choice (log 3). -/
def Obligations.ResetRunsTheResetStep : Prop :=
  ∀ s : State,
    (s.st = .faulted → exec .reset s = .next (s.answered [0x14])) ∧
    (s.st ≠ .faulted → s.cfg.hasRst = true →
      exec .reset s = .next (State.answered { s with
        st := .uninitialized
        rst := some .high
        log := s.log ++ [.rst .low, .delay 50, .rst .high, .delay 50] } [0x00])) ∧
    (s.st ≠ .faulted → s.cfg.hasRst = false → (∀ k, (s.drawAt 0).bf = some k → 1 < k) →
      exec .reset s = .next (State.answered { s.dropDraws 1 with
        st := .uninitialized
        cs := false
        dc := some .command
        log := s.log ++ (commandFrame 0x01 ++ [.delay 50]) } [0x00])) ∧
    (s.st ≠ .faulted → s.cfg.hasRst = false → ∀ k, (s.drawAt 0).bf = some k → k ≤ 1 →
      exec .reset s = .next (State.answered { afterFault .command [0x01] k s with st := .uninitialized } [0x40]))

/-- INIT (41_init_sequencer.md R122, R126). Faulted: ConfigurationError, no event. With no bus fault in its frames it
appends exactly the event list of R126 (reset step, table verbatim and in order, MADCTL last, sleep-out, display-on), ends
Ready with OK, and changes no other field. -/
def Obligations.InitReplaysTheTableAndEndsReady : Prop :=
  ∀ s : State,
    (s.st = .faulted → exec .init s = .next (s.answered [0x14])) ∧
    (s.st ≠ .faulted → s.noBusFault (initFrames s.cfg) →
      exec .init s = .next (State.answered { s.dropDraws (initFrames s.cfg) with
        st := .ready
        cs := false
        dc := some .command
        rst := if s.cfg.hasRst then some .high else s.rst
        log := s.log ++ initEvents s.cfg } [0x03]))

/-- The wire commands with a wait (41_init_sequencer.md R120, R122; 70_reset_and_hazards.md R240, R241): SWRESET, SLPOUT and
DISPON each send one command frame and then wait at least 50, 120 and 50 ms. The request they belong to goes on: no
response, and the sequencer stands at the frame's end. That form, and SWRESET on a block with a reset line, are the model's
choice (log 8, log 22). -/
def Obligations.WireCommandsWithAWait : Prop :=
  ∀ (s : State), s.st ≠ .faulted → s.noBusFault 1 →
    ∀ p ∈ ([(.swreset, 0x01, 50), (.slpout, 0x11, 120), (.dispon, 0x29, 50)] : List (Instr × Byte × Nat)),
      exec p.1 s = .next { s.dropDraws 1 with
        cs := false
        dc := some .command
        log := s.log ++ (commandFrame p.2.1 ++ [.delay p.2.2])
        seq := .busy s.seq.nextFrame 1 }

/-- The wire commands with data (30_encoding.md R86 to R89; 42_window_present.md R141, R142; 41_init_sequencer.md R123):
CASET, PASET, RAMWR and MADCTL each send a command frame and, in a bracket of its own, one data frame; no frame comes
between, and no field but those named changes. That form, and operands and states in which the block itself never emits the
row, are the model's choice (log 8, log 22). -/
def Obligations.WireCommandsWithData : Prop :=
  ∀ (s : State) (a b : Word16) (burst : List Byte) (m : Byte), s.st ≠ .faulted → s.noBusFault 2 →
    ∀ p ∈ ([(.caset a b, 0x2A, be16 a ++ be16 b), (.paset a b, 0x2B, be16 a ++ be16 b), (.ramwr burst, 0x2C, burst),
        (.madctl m, s.cfg.madctlOpcode, [m])] : List (Instr × Byte × List Byte)),
      exec p.1 s = .next { s.dropDraws 2 with
        cs := false
        dc := some .data
        log := s.log ++ (commandFrame p.2.1 ++ dataFrame p.2.2)
        seq := .busy (s.seq.nextFrame + 1) p.2.2.length }

/-- A wire command belongs to a running request and a Faulted block runs none (60_exceptions.md R201, 10_state.md R33): the
model's reading (log 8) is that it raises ConfigurationError there and emits nothing. -/
def Obligations.FaultedEmitsNoWireCommand : Prop :=
  ∀ (s : State) (i : Instr), i.isRequest = false → s.st = .faulted → exec i s = .next (s.answered [0x14])

/-- After every reset-line event the block waits at least 50 ms before its next event (70_reset_and_hazards.md R240): the
log keeps that under every instruction. -/
def Obligations.ResetLineSettlesBeforeTheNextEvent : Prop :=
  ∀ (s t : State) (i : Instr), exec i s = .next t → rstSettled s.log = true → rstSettled t.log = true

/-! ### The window and PRESENT -/

/-- PRESENT (42_window_present.md R143, R144), on an admitted configuration. Faulted: ConfigurationError; neither Faulted
nor Ready: InitializationError; both with no event. Ready, with no bus fault in its six frames: exactly the event list of
R144, of `29 + N_FB` events, the full-panel window in `win`, OK, and no other field changed. -/
def Obligations.PresentSendsTheWindowThenTheFrameMemory : Prop :=
  ∀ s : State, s.cfg.admitted = true →
    (s.st = .faulted → exec .present s = .next (s.answered [0x14])) ∧
    (s.st ≠ .faulted → s.st ≠ .ready →
      exec .present s = .next (s.answered [statusByte (some .initialization) s.st])) ∧
    (s.st = .ready → s.noBusFault 6 →
      exec .present s = .next (State.answered { s.dropDraws 6 with
        cs := false
        dc := some .data
        win := some { colStart := 0, colEnd := s.cfg.w - 1, rowStart := 0, rowEnd := s.cfg.h - 1 }
        log := s.log ++ presentEvents s.cfg (memRead s.cfg s.fb 0 s.cfg.nFb) } [0x03])) ∧
    (presentEvents s.cfg (memRead s.cfg s.fb 0 s.cfg.nFb)).length = 29 + s.cfg.nFb

/-- The source's example (30_encoding.md R88): a 240×320 panel gives CASET data `00 00 00 EF`, PASET data `00 00 01 3F` and
a burst of 153600 bytes. -/
def Obligations.PresentOnThe240By320Panel : Prop :=
  ∀ s : State, s.cfg.w = 240 → s.cfg.h = 320 → s.cfg.admitted = true → s.st = .ready → s.noBusFault 6 →
    ∃ (t : State) (burst : List Byte), exec .present s = .next t ∧ burst.length = 153600 ∧
      t.log = s.log ++ (commandFrame 0x2A ++ dataFrame [0x00, 0x00, 0x00, 0xEF])
        ++ (commandFrame 0x2B ++ dataFrame [0x00, 0x00, 0x01, 0x3F]) ++ (commandFrame 0x2C ++ dataFrame burst)

/-- A PRESENT that answers OK has loaded a valid window (42_window_present.md R140), sent that window's CASET and PASET data,
and sent a burst of exactly twice the window's pixel count in bytes, with no other frame between (R145). -/
def Obligations.BurstMatchesTheWindow : Prop :=
  ∀ s t : State, exec .present s = .next t → t.resps = s.resps ++ [[0x03]] →
    ∃ (v : Window) (burst : List Byte), t.win = some v ∧ v.valid s.cfg = true ∧ burst.length = 2 * v.pixels ∧
      t.log = s.log ++ (commandFrame 0x2A ++ dataFrame (be16 v.colStart ++ be16 v.colEnd))
        ++ (commandFrame 0x2B ++ dataFrame (be16 v.rowStart ++ be16 v.rowEnd)) ++ (commandFrame 0x2C ++ dataFrame burst)

/-- PRESENT (42_window_present.md R143) is the three wire rows CASET, PASET and RAMWR run one after another on the loaded
window, and then its response. That a wire row is a stage of its own, which neither writes `win` nor checks a window, is the
model's reading of R141 and R142 (log 8). -/
def Obligations.PresentIsCasetPasetRamwr : Prop :=
  ∀ s : State, s.cfg.admitted = true → s.st = .ready → s.noBusFault 6 →
    ∃ u, execAll [.caset 0 (s.cfg.w - 1), .paset 0 (s.cfg.h - 1), .ramwr (memRead s.cfg s.fb 0 s.cfg.nFb)]
        (s.setWin (fullWindow s.cfg)) = .next u ∧
      exec .present s = .next (u.answered [0x03])

/-- Only the window decoder writes `win`, and what it writes is valid (10_state.md R27, 42_window_present.md R141). -/
def Obligations.OnlyPresentWritesTheWindow : Prop :=
  ∀ (s t : State) (i : Instr), exec i s = .next t →
    t.win = s.win ∨ (i = .present ∧ s.st = .ready ∧ t.win = some (fullWindow s.cfg) ∧
      (fullWindow s.cfg).valid s.cfg = true)

/-- The WINDOW pseudo-request (30_encoding.md R93, 42_window_present.md R147) sends the frames of CASET and PASET for any
four values, valid or not, and bypasses the decoder: `win` is not written, `st` is neither checked nor changed. -/
def Obligations.RawWindowBypassesTheDecoder : Prop :=
  ∀ (s : State) (cs ce rs re : Word16), s.st ≠ .faulted → s.noBusFault 4 →
    execAll (pseudoWindow cs ce rs re) s = .next { s.dropDraws 4 with
      cs := false
      dc := some .data
      log := s.log ++ (commandFrame 0x2A ++ dataFrame (be16 cs ++ be16 ce))
        ++ (commandFrame 0x2B ++ dataFrame (be16 rs ++ be16 re))
      rp := s.rp + 4
      seq := .idle
      resps := s.resps ++ List.replicate 4 [statusByte none s.st] }

/-! ### Frame memory -/

/-- SETPX (43_frame_memory_ops.md R161). Its errors, in order, change nothing; otherwise the pixel's two bytes become the
colour's, high byte first, every other byte reads as before, and no other field changes but the response's. -/
def Obligations.SetpxWritesOnePixel : Prop :=
  ∀ (s : State) (x y c : Word16), Memory.wf s.cfg s.fb = true →
    (s.st = .faulted → exec (.setpx x y c) s = .next (s.answered [0x14])) ∧
    (s.st ≠ .faulted → s.st ≠ .ready →
      exec (.setpx x y c) s = .next (s.answered [statusByte (some .initialization) s.st])) ∧
    (s.st = .ready → (s.cfg.w.toNat ≤ x.toNat ∨ s.cfg.h.toNat ≤ y.toNat) →
      exec (.setpx x y c) s = .next (s.answered [0x33])) ∧
    (s.st = .ready → x.toNat < s.cfg.w.toNat → y.toNat < s.cfg.h.toNat →
      ∃ t, exec (.setpx x y c) s = .next t ∧ { t with fb := s.fb } = s.answered [0x03] ∧
        readCell s.cfg t.fb (pixelAddr s.cfg x.toNat y.toNat) = c.extractLsb' 8 8 ∧
        readCell s.cfg t.fb (pixelAddr s.cfg x.toNat y.toNat + 1) = c.extractLsb' 0 8 ∧
        ∀ a, a ≠ pixelAddr s.cfg x.toNat y.toNat → a ≠ pixelAddr s.cfg x.toNat y.toNat + 1 →
          readCell s.cfg t.fb a = readCell s.cfg s.fb a)

/-- GETPX (R163), not gated on Ready: the pixel's two bytes in the response, high byte first, and no effect but the
answer. -/
def Obligations.GetpxReadsOnePixel : Prop :=
  ∀ (s : State) (x y : Word16),
    (s.st = .faulted → exec (.getpx x y) s = .next (s.answered [0x14])) ∧
    (s.st ≠ .faulted → (s.cfg.w.toNat ≤ x.toNat ∨ s.cfg.h.toNat ≤ y.toNat) →
      exec (.getpx x y) s = .next (s.answered [statusByte (some .outOfBounds) s.st])) ∧
    (s.st ≠ .faulted → x.toNat < s.cfg.w.toNat → y.toNat < s.cfg.h.toNat →
      exec (.getpx x y) s = .next (s.answered [statusByte none s.st,
        readCell s.cfg s.fb (pixelAddr s.cfg x.toNat y.toNat),
        readCell s.cfg s.fb (pixelAddr s.cfg x.toNat y.toNat + 1)]))

/-- "`setPixel(x,y,c)` followed by reading that offset returns `c` encoded big-endian" (95_test_vectors.md L1-2), and a
pixel at other coordinates reads as before. -/
def Obligations.GetpxAfterSetpx : Prop :=
  ∀ (s : State) (x y c x' y' : Word16), Memory.wf s.cfg s.fb = true → s.st = .ready →
    x.toNat < s.cfg.w.toNat → y.toNat < s.cfg.h.toNat → x'.toNat < s.cfg.w.toNat → y'.toNat < s.cfg.h.toNat →
    ∃ t, exec (.setpx x y c) s = .next t ∧
      (x' = x → y' = y → exec (.getpx x' y') t = .next (t.answered (0x03 :: be16 c))) ∧
      (¬ (x' = x ∧ y' = y) → ∃ r u, exec (.getpx x' y') t = .next (t.answered r) ∧
        exec (.getpx x' y') s = .next u ∧ u.resps = s.resps ++ [r])

/-- FILL (R165): every pixel of the frame memory becomes `c`; every address beyond it reads as before. -/
def Obligations.FillSetsEveryPixel : Prop :=
  ∀ (s : State) (c : Word16), Memory.wf s.cfg s.fb = true →
    (s.st = .faulted → exec (.fill c) s = .next (s.answered [0x14])) ∧
    (s.st ≠ .faulted → s.st ≠ .ready →
      exec (.fill c) s = .next (s.answered [statusByte (some .initialization) s.st])) ∧
    (s.st = .ready →
      ∃ t, exec (.fill c) s = .next t ∧ { t with fb := s.fb } = s.answered [0x03] ∧
        (∀ p, p < s.cfg.w.toNat * s.cfg.h.toNat →
          readCell s.cfg t.fb (2 * p) = c.extractLsb' 8 8 ∧ readCell s.cfg t.fb (2 * p + 1) = c.extractLsb' 0 8) ∧
        ∀ a, s.cfg.nFb ≤ a → readCell s.cfg t.fb a = readCell s.cfg s.fb a)

/-- FILL is idempotent: "calling twice yields the same buffer" (R165), the same list of cells. -/
def Obligations.FillTwiceIsFillOnce : Prop :=
  ∀ (s : State) (c : Word16), Memory.wf s.cfg s.fb = true → s.st = .ready →
    ∃ t u, exec (.fill c) s = .next t ∧ exec (.fill c) t = .next u ∧ u.fb = t.fb

/-- BLIT (R167 to R169) with a source of exactly `2·w·h` bytes: its errors, in order, write nothing, and it never clips;
otherwise each pixel of the rectangle gets its two source bytes and every byte outside reads as before. -/
def Obligations.BlitCopiesTheRectangleOrFails : Prop :=
  ∀ (s : State) (x y w h : Word16) (pix : List Byte), Memory.wf s.cfg s.fb = true →
    pix.length = 2 * w.toNat * h.toNat →
    (s.st = .faulted → exec (.blit x y w h pix) s = .next (s.answered [0x14])) ∧
    (s.st ≠ .faulted → s.st ≠ .ready →
      exec (.blit x y w h pix) s = .next (s.answered [statusByte (some .initialization) s.st])) ∧
    (s.st = .ready → (s.cfg.w.toNat ≤ x.toNat ∨ s.cfg.h.toNat ≤ y.toNat ∨ s.cfg.w.toNat < x.toNat + w.toNat ∨
        s.cfg.h.toNat < y.toNat + h.toNat) →
      exec (.blit x y w h pix) s = .next (s.answered [0x33])) ∧
    (s.st = .ready → x.toNat < s.cfg.w.toNat → y.toNat < s.cfg.h.toNat → x.toNat + w.toNat ≤ s.cfg.w.toNat →
        y.toNat + h.toNat ≤ s.cfg.h.toNat →
      ∃ t, exec (.blit x y w h pix) s = .next t ∧ { t with fb := s.fb } = s.answered [0x03] ∧
        (∀ i j, i < w.toNat → j < h.toNat →
          pix[2 * (j * w.toNat + i)]? = some (readCell s.cfg t.fb (pixelAddr s.cfg (x.toNat + i) (y.toNat + j))) ∧
          pix[2 * (j * w.toNat + i) + 1]? =
            some (readCell s.cfg t.fb (pixelAddr s.cfg (x.toNat + i) (y.toNat + j) + 1))) ∧
        ∀ a, (∀ i j, i < w.toNat → j < h.toNat → a ≠ pixelAddr s.cfg (x.toNat + i) (y.toNat + j) ∧
            a ≠ pixelAddr s.cfg (x.toNat + i) (y.toNat + j) + 1) →
          readCell s.cfg t.fb a = readCell s.cfg s.fb a)

/-- A BLIT whose source has any other length is refused, before any other check (30_encoding.md R76; 60_exceptions.md R207,
R219). -/
def Obligations.BlitOfAnotherLengthIsRefused : Prop :=
  ∀ (s : State) (x y w h : Word16) (pix : List Byte), pix.length ≠ 2 * w.toNat * h.toNat →
    exec (.blit x y w h pix) s = .next s.refusedOnce

/-- "`w = W`, `h = H` at `(0,0)` replaces the whole `FB`" (R167): afterwards the frame memory is the source. -/
def Obligations.BlitOfTheWholePanelReplacesTheFrameMemory : Prop :=
  ∀ (s : State) (pix : List Byte), Memory.wf s.cfg s.fb = true → s.cfg.admitted = true → s.st = .ready →
    pix.length = s.cfg.nFb →
    ∃ t, exec (.blit 0 0 s.cfg.w s.cfg.h pix) s = .next t ∧ memRead t.cfg t.fb 0 t.cfg.nFb = pix

/-- RGB565 (R172): pure, in every state; the high 5, 6 and 5 bits of the channels, in the response. -/
def Obligations.Rgb565PacksTheHighBits : Prop :=
  ∀ (s : State) (r g b : Byte), ∃ v : Word16,
    v.toNat = r.toNat / 8 * 2048 + g.toNat / 4 * 32 + b.toNat / 8 ∧
    exec (.rgb565 r g b) s = .next (s.answered [statusByte none s.st, v.extractLsb' 8 8, v.extractLsb' 0 8])

/-- Frame-memory requests and RGB565 emit no wire event and do not touch `cs`, `dc`, `rst`, `win` or `st` (R174). -/
def Obligations.FrameMemoryRequestsEmitNothing : Prop :=
  ∀ (s t : State) (i : Instr), exec i s = .next t →
    ((∃ x y c, i = .setpx x y c) ∨ (∃ x y, i = .getpx x y) ∨ (∃ c, i = .fill c) ∨ (∃ x y w h pix, i = .blit x y w h pix) ∨
      (∃ r g b, i = .rgb565 r g b)) →
    t.log = s.log ∧ t.cs = s.cs ∧ t.dc = s.dc ∧ t.rst = s.rst ∧ t.win = s.win ∧ t.st = s.st

/-- Only SETPX, FILL and BLIT write the frame memory (20_memory.md R51), and only when they run in Ready and answer OK: INIT,
RESET, a bus fault and every error leave it unchanged. -/
def Obligations.OnlyDrawingWritesTheFrameMemory : Prop :=
  ∀ (s t : State) (i : Instr), exec i s = .next t →
    (t.fb = s.fb ∨ (s.st = .ready ∧ t.st = .ready ∧ t.resps = s.resps ++ [[0x03]] ∧
      ((∃ x y c, i = .setpx x y c) ∨ (∃ c, i = .fill c) ∨ ∃ x y w h pix, i = .blit x y w h pix)))

/-- A written pixel reaches the panel at its place in the next PRESENT's burst, and only there: every other byte of the burst
is the frame memory's byte from before (R174; 20_memory.md R50, R64; 30_encoding.md R89). -/
def Obligations.AWrittenPixelReachesItsPlaceInTheBurst : Prop :=
  ∀ (s : State) (x y c : Word16), Memory.wf s.cfg s.fb = true → s.cfg.admitted = true → s.st = .ready →
    s.noBusFault 6 → x.toNat < s.cfg.w.toNat → y.toNat < s.cfg.h.toNat →
    ∃ (t u : State) (burst : List Byte), exec (.setpx x y c) s = .next t ∧ exec .present t = .next u ∧
      t.log = s.log ∧ u.log = s.log ++ presentEvents s.cfg burst ∧ burst.length = s.cfg.nFb ∧
      burst[pixelAddr s.cfg x.toNat y.toNat]? = some (c.extractLsb' 8 8) ∧
      burst[pixelAddr s.cfg x.toNat y.toNat + 1]? = some (c.extractLsb' 0 8) ∧
      ∀ k, k < s.cfg.nFb → k ≠ pixelAddr s.cfg x.toNat y.toNat → k ≠ pixelAddr s.cfg x.toNat y.toNat + 1 →
        burst[k]? = some (readCell s.cfg s.fb k)

/-- The frame memory is seen by PRESENT and GETPX alone (20_memory.md R52): any other instruction, run on two states that
differ only in it, gives states that differ only in it. -/
def Obligations.OnlyPresentAndGetpxSeeTheFrameMemory : Prop :=
  ∀ (s t : State) (m : List Host.Cell) (i : Instr), i ≠ .present → (∀ x y, i ≠ .getpx x y) → exec i s = .next t →
    ∃ m', exec i { s with fb := m } = .next { t with fb := m' }

/-! ### Errors and the controller state -/

/-- While Faulted, every request but RGB565 answers `0x14`, emits no event, and changes nothing but the answer; RGB565 still
answers, with `err = 0` (60_exceptions.md R201). -/
def Obligations.FaultedAnswersConfigurationError : Prop :=
  (∀ (s : State) (i : Instr), s.st = .faulted → i.isRequest = true → i.wf = true → (∀ r g b, i ≠ .rgb565 r g b) →
    exec i s = .next (s.answered [0x14])) ∧
  (∀ (s : State) (r g b : Byte), s.st = .faulted → ∃ hi lo, exec (.rgb565 r g b) s = .next (s.answered [0x04, hi, lo]))

/-- PRESENT, SETPX, FILL and BLIT from Uninitialized answer `0x20`, before any operand check, with no effect but the
answer; no other request ever raises InitializationError (60_exceptions.md R202). -/
def Obligations.DrawingBeforeReadyFails : Prop :=
  (∀ (s : State) (i : Instr), s.st = .uninitialized → i.wf = true →
    (i = .present ∨ (∃ x y c, i = .setpx x y c) ∨ (∃ c, i = .fill c) ∨ ∃ x y w h pix, i = .blit x y w h pix) →
    exec i s = .next (s.answered [0x20])) ∧
  (∀ (s t : State) (i : Instr), exec i s = .next t →
    ((∃ op, i = .cmd op) ∨ (∃ payload, i = .data payload) ∨ i = .reset ∨ i = .init ∨ (∃ x y, i = .getpx x y) ∨
      ∃ r g b, i = .rgb565 r g b) →
    ∃ (status : Byte) (value : List Byte), t.resps = s.resps ++ [status :: value] ∧ status.extractLsb' 4 4 ≠ 2)

/-- After a BusTransferError (60_exceptions.md R206) `st` is Uninitialized, the response is `0x40`, the rest of the request
was not run, `cs` is as the fault's draw left it and `dc` is the faulted frame's mode (`FrameFailed`). The frame memory and
the configuration are unchanged; `win` is as before, but the full-panel window in PRESENT, which keeps it whichever frame
failed (42_window_present.md R141); the reset line is as before, but High after its pulse in an INIT of a block with one. -/
def Obligations.BusFaultLeavesTheBlockUninitialized : Prop :=
  ∀ (s t : State) (i : Instr) (status : Byte) (value : List Byte), exec i s = .next t →
    t.resps = s.resps ++ [status :: value] → status.extractLsb' 4 4 = 4 →
    s.st ≠ .faulted ∧ t.st = .uninitialized ∧ status = 0x40 ∧ value = [] ∧ t.rp = s.rp + 1 ∧ t.seq = .idle ∧
      FrameFailed s t (fullEvents s i) ∧ t.fb = s.fb ∧ t.cfg = s.cfg ∧ t.port = s.port ∧ t.refused = s.refused ∧
      t.win = (if i = .present then some (fullWindow s.cfg) else s.win) ∧
      t.rst = (if i = .init ∧ s.cfg.hasRst = true then some .high else s.rst)

/-- ConfigurationError, InitializationError and OutOfBoundsError are precise (60_exceptions.md R208): nothing but the
answer changes. -/
def Obligations.EarlyErrorsArePrecise : Prop :=
  ∀ (s t : State) (i : Instr) (status : Byte) (value : List Byte), exec i s = .next t →
    t.resps = s.resps ++ [status :: value] → status.extractLsb' 4 4 ∈ ([1, 2, 3] : List (BitVec 4)) →
    value = [] ∧ t = s.answered [status]

/-- Every well-formed request returns one response (30_encoding.md R80): a status byte whose bits 7..4 are the error, 0
for OK and never above 4, bit 3 zero, bits 2..0 the code of `st` after the request; then the two bytes of a value
exactly for GETPX and RGB565 with error 0. -/
def Obligations.EveryResponseHasItsForm : Prop :=
  ∀ (s t : State) (i : Instr), i.isRequest = true → i.wf = true → exec i s = .next t →
    ∃ (status : Byte) (value : List Byte), t.resps = s.resps ++ [status :: value] ∧
      (status.extractLsb' 4 4).toNat ≤ 4 ∧ status.extractLsb' 3 1 = 0 ∧
      status.extractLsb' 0 3 = (match t.st with
        | .uninitialized => 0 | .resetting => 1 | .configuring => 2 | .ready => 3 | .faulted => 4) ∧
      (if status.extractLsb' 4 4 = 0 ∧ ((∃ x y, i = .getpx x y) ∨ ∃ r g b, i = .rgb565 r g b)
        then value.length = 2 else value = [])

/-- `st` changes only as the table of 10_state.md R30 says, seen from request to request: to Ready by INIT, to
Uninitialized by RESET, to Uninitialized by a BusTransferError, and never out of Faulted. -/
def Obligations.StChangesOnlyAsTabled : Prop :=
  ∀ (s t : State) (i : Instr), exec i s = .next t →
    t.st = s.st ∨ (s.st ≠ .faulted ∧ ((i = .init ∧ t.st = .ready) ∨ (i = .reset ∧ t.st = .uninitialized) ∨
      (t.resps = s.resps ++ [[0x40]] ∧ t.st = .uninitialized)))

/-- `Faulted` is terminal: no instruction leaves it, and none emits any event in it (10_state.md R33). -/
def Obligations.FaultedIsTerminal : Prop :=
  ∀ (s t : State) (i : Instr), exec i s = .next t → s.st = .faulted → t.st = .faulted ∧ t.log = s.log

/-- Only the reset step of RESET or INIT drives the reset line, only where there is one: no other instruction logs a
reset-line event or changes `rst`, and the reset step leaves it High (10_state.md R26, 41_init_sequencer.md R120). -/
def Obligations.OnlyTheResetStepDrivesTheResetLine : Prop :=
  ∀ (s t : State) (i : Instr), exec i s = .next t →
    (t.rst = s.rst ∨ (s.cfg.hasRst = true ∧ (i = .reset ∨ i = .init) ∧ t.rst = some .high)) ∧
    ∃ es, t.log = s.log ++ es ∧ ∀ l, Event.rst l ∈ es → s.cfg.hasRst = true ∧ (i = .reset ∨ i = .init)

/-! ### Power-on, configuration and the invariant -/

/-- Power-on values (10_state.md R31, R35) of an admitted configuration: each field of the state record, and a frame memory
that reads as `FB_INIT`. -/
def Obligations.PowerOnValues : Prop :=
  ∀ c : Cfg, c.admitted = true → c.fbInitFits = true →
    ∃ t, State.powerOn c = .next t ∧ t.cfg = c ∧
      t.st = (if c.hasDc = false ∨ c.hasCs = false then .faulted else .uninitialized) ∧ t.cs = false ∧ t.dc = none ∧
      t.rst = (if c.hasRst then some .high else none) ∧ t.win = none ∧ t.log = [] ∧ t.rp = 0 ∧ t.seq = .idle ∧
      memRead c t.fb 0 c.nFb = c.fbInit

/-- A configuration outside `1 ≤ W ≤ MAX_W` and `1 ≤ H ≤ MAX_H` is refused, and only such a one: no machine state exists for
it. One without DC or CS is admitted, and the block starts in Faulted (00_scope.md R6). -/
def Obligations.OnlyAdmittedConfigurationsPowerOn : Prop :=
  ∀ c : Cfg,
    (1 ≤ c.w.toNat ∧ c.w.toNat ≤ c.maxW ∧ 1 ≤ c.h.toNat ∧ c.h.toNat ≤ c.maxH →
      ∃ t, State.powerOn c = .next t ∧ (c.hasDc = false ∨ c.hasCs = false → t.st = .faulted)) ∧
    (¬ (1 ≤ c.w.toNat ∧ c.w.toNat ≤ c.maxW ∧ 1 ≤ c.h.toNat ∧ c.h.toNat ≤ c.maxH) →
      State.powerOn c = .refused .configurationNotAdmitted)

/-- No request changes a configuration field (10_state.md R34). -/
def Obligations.ConfigurationIsReadOnly : Prop :=
  (∀ (s t : State) (i : Instr), exec i s = .next t → t.cfg = s.cfg) ∧ ∀ s t : State, step s = .next t → t.cfg = s.cfg

/-- Every step keeps the invariant: the frame memory canonical and in range, `st` resting and Faulted exactly when a line
is absent, the reset line High, a written window valid, the sequencer idle, CS and DC as the log last drove them, every
byte inside a bracket (10_state.md R26, R27, R28, R31, R32; 20_memory.md R50; 40_framer.md R105, R106). -/
def Obligations.EveryStepKeepsTheInvariant : Prop :=
  ∀ s t : State, s.Inv → step s = .next t → t.Inv

/-- The invariant holds at the power-on of every admitted configuration, and at reset (10_state.md R35). -/
def Obligations.PowerOnMeetsTheInvariant : Prop :=
  (∀ c : Cfg, c.admitted = true → c.fbInitFits = true → (State.ofCfg c).Inv) ∧ State.reset.Inv

/-- The invariant holds after every run from power-on, whatever the host hands over and whatever the environment draws. -/
def Obligations.EveryRunFromPowerOnKeepsTheInvariant : Prop :=
  ∀ (c : Cfg) (port : List (List Byte)) (draws : List BusDraw) (k : Nat) (t : State), c.admitted = true →
    c.fbInitFits = true →
    Host.Core.run Sys2Proof.core k ({ State.ofCfg c with port := port, draws := draws } : State) = .next t → t.Inv

/-! ### A bus fault is raised -/

/-- A frame whose draw fails it is failed, in every instruction that runs frames: CMD, DATA, RESET, INIT, PRESENT and the
seven wire rows (40_framer.md R104; 60_exceptions.md R204, R206, R207). Wherever a frame of mode `m` and bytes `bs` stands in
the full event list, if no frame before it fails and its own draw is `bf = some k` with `0 ≤ k ≤ n`, then exactly what comes
before it and its first `k` bytes are sent, and this is the whole state after: Uninitialized, CS as the draw left it, DC at
`m`, PRESENT's window loaded, INIT's reset line High, `0x40` answered, every other field but the used-up draws as before. That
a wire row is run and answered so on its own is the model's choice (log 8, log 22), and so is a DATA that no request encodes
(log 21). -/
def Obligations.AFailedFrameEndsTheRequest : Prop :=
  ∀ (s : State) (i : Instr) (before : List Event) (m : Mode) (bs : List Byte) (k : Nat) (csf : Bool),
    s.st ≠ .faulted → (i = .present → s.st = .ready ∧ s.cfg.admitted = true) →
    before ++ ([.cs true, .dc m] ++ bs.map .byte ++ [.cs false]) <+: fullEvents s i →
    s.noBusFault (before.count (.cs true)) → s.drawAt (before.count (.cs true)) = ⟨some k, csf⟩ → k ≤ bs.length →
    exec i s = .next (State.answered { s.dropDraws (before.count (.cs true) + 1) with
      st := .uninitialized
      cs := csf
      dc := some m
      rst := if i = .init ∧ s.cfg.hasRst = true then some .high else s.rst
      win := if i = .present then some (fullWindow s.cfg) else s.win
      log := s.log ++ before ++ failedFrame m bs k csf } [0x40])
end

