-- ==== Sys2Proof/Laws/Decode.lean ====
section
/-! SUPPORT. Byte order there and back (20_memory.md rules R56, R57) and the opcode map there and back (30_encoding.md rule
R73). -/

namespace Sys2Proof

@[simp] theorem ofBe16_be16 (v : Word16) : ofBe16 (v.extractLsb' 8 8) (v.extractLsb' 0 8) = v := by
  unfold ofBe16
  rw [BitVec.extractLsb'_append_extractLsb'_eq_extractLsb' (by decide)]
  exact BitVec.extractLsb'_eq_self

theorem extract_append_high (n : Nat) (hi : BitVec n) (lo : Byte) (i k : Nat) :
    BitVec.extractLsb' (8 + i) k (hi ++ lo) = BitVec.extractLsb' i k hi := by
  ext j hj
  simp [BitVec.getLsbD_append, show ¬ 8 + i + j < 8 by omega, show 8 + i + j - 8 = i + j by omega]

theorem extract_append_low (n : Nat) (hi : BitVec n) (lo : Byte) : BitVec.extractLsb' 0 8 (hi ++ lo) = lo := by
  ext j hj
  simp [BitVec.getLsbD_append, hj]

@[simp] theorem be16_ofBe16 (hi lo : Byte) : be16 (ofBe16 hi lo) = [hi, lo] := by
  simp only [be16, ofBe16, extract_append_low]
  rw [extract_append_high 8 hi lo 0 8, BitVec.extractLsb'_eq_self]

@[simp] theorem ofBe32_be32 (v : Word32) :
    ofBe32 (v.extractLsb' 24 8) (v.extractLsb' 16 8) (v.extractLsb' 8 8) (v.extractLsb' 0 8) = v := by
  unfold ofBe32
  rw [BitVec.extractLsb'_append_extractLsb'_eq_extractLsb' (by decide),
    BitVec.extractLsb'_append_extractLsb'_eq_extractLsb' (by decide),
    BitVec.extractLsb'_append_extractLsb'_eq_extractLsb' (by decide)]
  exact BitVec.extractLsb'_eq_self

@[simp] theorem be32_ofBe32 (b3 b2 b1 b0 : Byte) : be32 (ofBe32 b3 b2 b1 b0) = [b3, b2, b1, b0] := by
  simp only [be32, ofBe32, extract_append_low]
  rw [extract_append_high 24 _ b0 16 8, extract_append_high 24 _ b0 8 8, extract_append_high 24 _ b0 0 8,
    extract_append_high 16 _ b1 8 8, extract_append_high 16 _ b1 0 8, extract_append_high 8 _ b2 0 8]
  simp [extract_append_low]

theorem toNat_append_byte (n : Nat) (hi : BitVec n) (lo : Byte) :
    (hi ++ lo).toNat = hi.toNat * 2 ^ 8 + lo.toNat := by
  rw [BitVec.toNat_append, ← Nat.shiftLeft_add_eq_or_of_lt lo.isLt, Nat.shiftLeft_eq]

theorem ofBe16_toNat (hi lo : Byte) : (ofBe16 hi lo).toNat = hi.toNat * 2 ^ 8 + lo.toNat :=
  toNat_append_byte 8 hi lo

theorem ofBe32_toNat (b3 b2 b1 b0 : Byte) :
    (ofBe32 b3 b2 b1 b0).toNat = b3.toNat * 2 ^ 24 + b2.toNat * 2 ^ 16 + b1.toNat * 2 ^ 8 + b0.toNat := by
  have h : (ofBe32 b3 b2 b1 b0).toNat = ((b3.toNat * 2 ^ 8 + b2.toNat) * 2 ^ 8 + b1.toNat) * 2 ^ 8 + b0.toNat := by
    rw [← toNat_append_byte 8 b3 b2, ← toNat_append_byte 16 _ b1]
    exact toNat_append_byte 24 _ b0
  rw [h]; omega

@[simp] theorem ReqOp.ofCode_code (o : ReqOp) : ReqOp.ofCode o.code = some o := by
  cases o <;> decide

theorem ReqOp.code_of_ofCode {b : Byte} {o : ReqOp} (h : ReqOp.ofCode b = some o) : o.code = b := by
  have := List.find?_some h
  simpa using this

end Sys2Proof
end

