-- ==== Sys2Proof/Laws/State.lean ====
section
/-! SUPPORT. One lemma per field per update of State, so that no later proof unfolds a record update. -/

namespace Sys2Proof.Machine

variable (s : State)

/-! ### `setSt` -/

@[simp] theorem State.setSt_st (v : CtrlState) : (s.setSt v).st = v := rfl
@[simp] theorem State.setSt_cs (v : CtrlState) : (s.setSt v).cs = s.cs := rfl
@[simp] theorem State.setSt_dc (v : CtrlState) : (s.setSt v).dc = s.dc := rfl
@[simp] theorem State.setSt_rst (v : CtrlState) : (s.setSt v).rst = s.rst := rfl
@[simp] theorem State.setSt_win (v : CtrlState) : (s.setSt v).win = s.win := rfl
@[simp] theorem State.setSt_fb (v : CtrlState) : (s.setSt v).fb = s.fb := rfl
@[simp] theorem State.setSt_log (v : CtrlState) : (s.setSt v).log = s.log := rfl
@[simp] theorem State.setSt_rp (v : CtrlState) : (s.setSt v).rp = s.rp := rfl
@[simp] theorem State.setSt_seq (v : CtrlState) : (s.setSt v).seq = s.seq := rfl
@[simp] theorem State.setSt_cfg (v : CtrlState) : (s.setSt v).cfg = s.cfg := rfl
@[simp] theorem State.setSt_port (v : CtrlState) : (s.setSt v).port = s.port := rfl
@[simp] theorem State.setSt_resps (v : CtrlState) : (s.setSt v).resps = s.resps := rfl
@[simp] theorem State.setSt_refused (v : CtrlState) : (s.setSt v).refused = s.refused := rfl
@[simp] theorem State.setSt_draws (v : CtrlState) : (s.setSt v).draws = s.draws := rfl
@[simp] theorem State.setSt_drawNo (v : CtrlState) : (s.setSt v).drawNo = s.drawNo := rfl
@[simp] theorem State.setSt_drawAt (v : CtrlState) (i : Nat) : (s.setSt v).drawAt i = s.drawAt i := rfl

/-! ### `emit` -/

@[simp] theorem State.emit_st (es : List Event) : (s.emit es).st = s.st := rfl
@[simp] theorem State.emit_cs (es : List Event) : (s.emit es).cs = s.cs := rfl
@[simp] theorem State.emit_dc (es : List Event) : (s.emit es).dc = s.dc := rfl
@[simp] theorem State.emit_rst (es : List Event) : (s.emit es).rst = s.rst := rfl
@[simp] theorem State.emit_win (es : List Event) : (s.emit es).win = s.win := rfl
@[simp] theorem State.emit_fb (es : List Event) : (s.emit es).fb = s.fb := rfl
@[simp] theorem State.emit_log (es : List Event) : (s.emit es).log = s.log ++ es := rfl
@[simp] theorem State.emit_rp (es : List Event) : (s.emit es).rp = s.rp := rfl
@[simp] theorem State.emit_seq (es : List Event) : (s.emit es).seq = s.seq := rfl
@[simp] theorem State.emit_cfg (es : List Event) : (s.emit es).cfg = s.cfg := rfl
@[simp] theorem State.emit_port (es : List Event) : (s.emit es).port = s.port := rfl
@[simp] theorem State.emit_resps (es : List Event) : (s.emit es).resps = s.resps := rfl
@[simp] theorem State.emit_refused (es : List Event) : (s.emit es).refused = s.refused := rfl
@[simp] theorem State.emit_draws (es : List Event) : (s.emit es).draws = s.draws := rfl
@[simp] theorem State.emit_drawNo (es : List Event) : (s.emit es).drawNo = s.drawNo := rfl
@[simp] theorem State.emit_drawAt (es : List Event) (i : Nat) : (s.emit es).drawAt i = s.drawAt i := rfl

/-! ### `driveCs` -/

@[simp] theorem State.driveCs_st (a : Bool) : (s.driveCs a).st = s.st := rfl
@[simp] theorem State.driveCs_cs (a : Bool) : (s.driveCs a).cs = a := rfl
@[simp] theorem State.driveCs_dc (a : Bool) : (s.driveCs a).dc = s.dc := rfl
@[simp] theorem State.driveCs_rst (a : Bool) : (s.driveCs a).rst = s.rst := rfl
@[simp] theorem State.driveCs_win (a : Bool) : (s.driveCs a).win = s.win := rfl
@[simp] theorem State.driveCs_fb (a : Bool) : (s.driveCs a).fb = s.fb := rfl
@[simp] theorem State.driveCs_log (a : Bool) : (s.driveCs a).log = s.log ++ [.cs a] := rfl
@[simp] theorem State.driveCs_rp (a : Bool) : (s.driveCs a).rp = s.rp := rfl
@[simp] theorem State.driveCs_seq (a : Bool) : (s.driveCs a).seq = s.seq := rfl
@[simp] theorem State.driveCs_cfg (a : Bool) : (s.driveCs a).cfg = s.cfg := rfl
@[simp] theorem State.driveCs_port (a : Bool) : (s.driveCs a).port = s.port := rfl
@[simp] theorem State.driveCs_resps (a : Bool) : (s.driveCs a).resps = s.resps := rfl
@[simp] theorem State.driveCs_refused (a : Bool) : (s.driveCs a).refused = s.refused := rfl
@[simp] theorem State.driveCs_draws (a : Bool) : (s.driveCs a).draws = s.draws := rfl
@[simp] theorem State.driveCs_drawNo (a : Bool) : (s.driveCs a).drawNo = s.drawNo := rfl
@[simp] theorem State.driveCs_drawAt (a : Bool) (i : Nat) : (s.driveCs a).drawAt i = s.drawAt i := rfl

/-! ### `driveDc` -/

@[simp] theorem State.driveDc_st (m : Mode) : (s.driveDc m).st = s.st := rfl
@[simp] theorem State.driveDc_cs (m : Mode) : (s.driveDc m).cs = s.cs := rfl
@[simp] theorem State.driveDc_dc (m : Mode) : (s.driveDc m).dc = some m := rfl
@[simp] theorem State.driveDc_rst (m : Mode) : (s.driveDc m).rst = s.rst := rfl
@[simp] theorem State.driveDc_win (m : Mode) : (s.driveDc m).win = s.win := rfl
@[simp] theorem State.driveDc_fb (m : Mode) : (s.driveDc m).fb = s.fb := rfl
@[simp] theorem State.driveDc_log (m : Mode) : (s.driveDc m).log = s.log ++ [.dc m] := rfl
@[simp] theorem State.driveDc_rp (m : Mode) : (s.driveDc m).rp = s.rp := rfl
@[simp] theorem State.driveDc_seq (m : Mode) : (s.driveDc m).seq = s.seq := rfl
@[simp] theorem State.driveDc_cfg (m : Mode) : (s.driveDc m).cfg = s.cfg := rfl
@[simp] theorem State.driveDc_port (m : Mode) : (s.driveDc m).port = s.port := rfl
@[simp] theorem State.driveDc_resps (m : Mode) : (s.driveDc m).resps = s.resps := rfl
@[simp] theorem State.driveDc_refused (m : Mode) : (s.driveDc m).refused = s.refused := rfl
@[simp] theorem State.driveDc_draws (m : Mode) : (s.driveDc m).draws = s.draws := rfl
@[simp] theorem State.driveDc_drawNo (m : Mode) : (s.driveDc m).drawNo = s.drawNo := rfl
@[simp] theorem State.driveDc_drawAt (m : Mode) (i : Nat) : (s.driveDc m).drawAt i = s.drawAt i := rfl

/-! ### `driveRst` -/

@[simp] theorem State.driveRst_st (l : Level) : (s.driveRst l).st = s.st := rfl
@[simp] theorem State.driveRst_cs (l : Level) : (s.driveRst l).cs = s.cs := rfl
@[simp] theorem State.driveRst_dc (l : Level) : (s.driveRst l).dc = s.dc := rfl
@[simp] theorem State.driveRst_rst (l : Level) : (s.driveRst l).rst = some l := rfl
@[simp] theorem State.driveRst_win (l : Level) : (s.driveRst l).win = s.win := rfl
@[simp] theorem State.driveRst_fb (l : Level) : (s.driveRst l).fb = s.fb := rfl
@[simp] theorem State.driveRst_log (l : Level) : (s.driveRst l).log = s.log ++ [.rst l] := rfl
@[simp] theorem State.driveRst_rp (l : Level) : (s.driveRst l).rp = s.rp := rfl
@[simp] theorem State.driveRst_seq (l : Level) : (s.driveRst l).seq = s.seq := rfl
@[simp] theorem State.driveRst_cfg (l : Level) : (s.driveRst l).cfg = s.cfg := rfl
@[simp] theorem State.driveRst_port (l : Level) : (s.driveRst l).port = s.port := rfl
@[simp] theorem State.driveRst_resps (l : Level) : (s.driveRst l).resps = s.resps := rfl
@[simp] theorem State.driveRst_refused (l : Level) : (s.driveRst l).refused = s.refused := rfl
@[simp] theorem State.driveRst_draws (l : Level) : (s.driveRst l).draws = s.draws := rfl
@[simp] theorem State.driveRst_drawNo (l : Level) : (s.driveRst l).drawNo = s.drawNo := rfl
@[simp] theorem State.driveRst_drawAt (l : Level) (i : Nat) : (s.driveRst l).drawAt i = s.drawAt i := rfl

/-! ### `setWin` -/

@[simp] theorem State.setWin_st (v : Window) : (s.setWin v).st = s.st := rfl
@[simp] theorem State.setWin_cs (v : Window) : (s.setWin v).cs = s.cs := rfl
@[simp] theorem State.setWin_dc (v : Window) : (s.setWin v).dc = s.dc := rfl
@[simp] theorem State.setWin_rst (v : Window) : (s.setWin v).rst = s.rst := rfl
@[simp] theorem State.setWin_win (v : Window) : (s.setWin v).win = some v := rfl
@[simp] theorem State.setWin_fb (v : Window) : (s.setWin v).fb = s.fb := rfl
@[simp] theorem State.setWin_log (v : Window) : (s.setWin v).log = s.log := rfl
@[simp] theorem State.setWin_rp (v : Window) : (s.setWin v).rp = s.rp := rfl
@[simp] theorem State.setWin_seq (v : Window) : (s.setWin v).seq = s.seq := rfl
@[simp] theorem State.setWin_cfg (v : Window) : (s.setWin v).cfg = s.cfg := rfl
@[simp] theorem State.setWin_port (v : Window) : (s.setWin v).port = s.port := rfl
@[simp] theorem State.setWin_resps (v : Window) : (s.setWin v).resps = s.resps := rfl
@[simp] theorem State.setWin_refused (v : Window) : (s.setWin v).refused = s.refused := rfl
@[simp] theorem State.setWin_draws (v : Window) : (s.setWin v).draws = s.draws := rfl
@[simp] theorem State.setWin_drawNo (v : Window) : (s.setWin v).drawNo = s.drawNo := rfl
@[simp] theorem State.setWin_drawAt (v : Window) (i : Nat) : (s.setWin v).drawAt i = s.drawAt i := rfl

/-! ### `setFb` -/

@[simp] theorem State.setFb_st (m : List Host.Cell) : (s.setFb m).st = s.st := rfl
@[simp] theorem State.setFb_cs (m : List Host.Cell) : (s.setFb m).cs = s.cs := rfl
@[simp] theorem State.setFb_dc (m : List Host.Cell) : (s.setFb m).dc = s.dc := rfl
@[simp] theorem State.setFb_rst (m : List Host.Cell) : (s.setFb m).rst = s.rst := rfl
@[simp] theorem State.setFb_win (m : List Host.Cell) : (s.setFb m).win = s.win := rfl
@[simp] theorem State.setFb_fb (m : List Host.Cell) : (s.setFb m).fb = m := rfl
@[simp] theorem State.setFb_log (m : List Host.Cell) : (s.setFb m).log = s.log := rfl
@[simp] theorem State.setFb_rp (m : List Host.Cell) : (s.setFb m).rp = s.rp := rfl
@[simp] theorem State.setFb_seq (m : List Host.Cell) : (s.setFb m).seq = s.seq := rfl
@[simp] theorem State.setFb_cfg (m : List Host.Cell) : (s.setFb m).cfg = s.cfg := rfl
@[simp] theorem State.setFb_port (m : List Host.Cell) : (s.setFb m).port = s.port := rfl
@[simp] theorem State.setFb_resps (m : List Host.Cell) : (s.setFb m).resps = s.resps := rfl
@[simp] theorem State.setFb_refused (m : List Host.Cell) : (s.setFb m).refused = s.refused := rfl
@[simp] theorem State.setFb_draws (m : List Host.Cell) : (s.setFb m).draws = s.draws := rfl
@[simp] theorem State.setFb_drawNo (m : List Host.Cell) : (s.setFb m).drawNo = s.drawNo := rfl
@[simp] theorem State.setFb_drawAt (m : List Host.Cell) (i : Nat) : (s.setFb m).drawAt i = s.drawAt i := rfl

/-! ### `setSeq` -/

@[simp] theorem State.setSeq_st (p : SeqPos) : (s.setSeq p).st = s.st := rfl
@[simp] theorem State.setSeq_cs (p : SeqPos) : (s.setSeq p).cs = s.cs := rfl
@[simp] theorem State.setSeq_dc (p : SeqPos) : (s.setSeq p).dc = s.dc := rfl
@[simp] theorem State.setSeq_rst (p : SeqPos) : (s.setSeq p).rst = s.rst := rfl
@[simp] theorem State.setSeq_win (p : SeqPos) : (s.setSeq p).win = s.win := rfl
@[simp] theorem State.setSeq_fb (p : SeqPos) : (s.setSeq p).fb = s.fb := rfl
@[simp] theorem State.setSeq_log (p : SeqPos) : (s.setSeq p).log = s.log := rfl
@[simp] theorem State.setSeq_rp (p : SeqPos) : (s.setSeq p).rp = s.rp := rfl
@[simp] theorem State.setSeq_seq (p : SeqPos) : (s.setSeq p).seq = p := rfl
@[simp] theorem State.setSeq_cfg (p : SeqPos) : (s.setSeq p).cfg = s.cfg := rfl
@[simp] theorem State.setSeq_port (p : SeqPos) : (s.setSeq p).port = s.port := rfl
@[simp] theorem State.setSeq_resps (p : SeqPos) : (s.setSeq p).resps = s.resps := rfl
@[simp] theorem State.setSeq_refused (p : SeqPos) : (s.setSeq p).refused = s.refused := rfl
@[simp] theorem State.setSeq_draws (p : SeqPos) : (s.setSeq p).draws = s.draws := rfl
@[simp] theorem State.setSeq_drawNo (p : SeqPos) : (s.setSeq p).drawNo = s.drawNo := rfl
@[simp] theorem State.setSeq_drawAt (p : SeqPos) (i : Nat) : (s.setSeq p).drawAt i = s.drawAt i := rfl

/-! ### `setPort` -/

@[simp] theorem State.setPort_st (p : List (List Byte)) : (s.setPort p).st = s.st := rfl
@[simp] theorem State.setPort_cs (p : List (List Byte)) : (s.setPort p).cs = s.cs := rfl
@[simp] theorem State.setPort_dc (p : List (List Byte)) : (s.setPort p).dc = s.dc := rfl
@[simp] theorem State.setPort_rst (p : List (List Byte)) : (s.setPort p).rst = s.rst := rfl
@[simp] theorem State.setPort_win (p : List (List Byte)) : (s.setPort p).win = s.win := rfl
@[simp] theorem State.setPort_fb (p : List (List Byte)) : (s.setPort p).fb = s.fb := rfl
@[simp] theorem State.setPort_log (p : List (List Byte)) : (s.setPort p).log = s.log := rfl
@[simp] theorem State.setPort_rp (p : List (List Byte)) : (s.setPort p).rp = s.rp := rfl
@[simp] theorem State.setPort_seq (p : List (List Byte)) : (s.setPort p).seq = s.seq := rfl
@[simp] theorem State.setPort_cfg (p : List (List Byte)) : (s.setPort p).cfg = s.cfg := rfl
@[simp] theorem State.setPort_port (p : List (List Byte)) : (s.setPort p).port = p := rfl
@[simp] theorem State.setPort_resps (p : List (List Byte)) : (s.setPort p).resps = s.resps := rfl
@[simp] theorem State.setPort_refused (p : List (List Byte)) : (s.setPort p).refused = s.refused := rfl
@[simp] theorem State.setPort_draws (p : List (List Byte)) : (s.setPort p).draws = s.draws := rfl
@[simp] theorem State.setPort_drawNo (p : List (List Byte)) : (s.setPort p).drawNo = s.drawNo := rfl
@[simp] theorem State.setPort_drawAt (p : List (List Byte)) (i : Nat) : (s.setPort p).drawAt i = s.drawAt i := rfl

/-! ### `respond` -/

@[simp] theorem State.respond_st (r : List Byte) : (s.respond r).st = s.st := rfl
@[simp] theorem State.respond_cs (r : List Byte) : (s.respond r).cs = s.cs := rfl
@[simp] theorem State.respond_dc (r : List Byte) : (s.respond r).dc = s.dc := rfl
@[simp] theorem State.respond_rst (r : List Byte) : (s.respond r).rst = s.rst := rfl
@[simp] theorem State.respond_win (r : List Byte) : (s.respond r).win = s.win := rfl
@[simp] theorem State.respond_fb (r : List Byte) : (s.respond r).fb = s.fb := rfl
@[simp] theorem State.respond_log (r : List Byte) : (s.respond r).log = s.log := rfl
@[simp] theorem State.respond_rp (r : List Byte) : (s.respond r).rp = s.rp + 1 := rfl
@[simp] theorem State.respond_seq (r : List Byte) : (s.respond r).seq = .idle := rfl
@[simp] theorem State.respond_cfg (r : List Byte) : (s.respond r).cfg = s.cfg := rfl
@[simp] theorem State.respond_port (r : List Byte) : (s.respond r).port = s.port := rfl
@[simp] theorem State.respond_resps (r : List Byte) : (s.respond r).resps = s.resps ++ [r] := rfl
@[simp] theorem State.respond_refused (r : List Byte) : (s.respond r).refused = s.refused := rfl
@[simp] theorem State.respond_draws (r : List Byte) : (s.respond r).draws = s.draws := rfl
@[simp] theorem State.respond_drawNo (r : List Byte) : (s.respond r).drawNo = s.drawNo := rfl
@[simp] theorem State.respond_drawAt (r : List Byte) (i : Nat) : (s.respond r).drawAt i = s.drawAt i := rfl

/-! ### `refuse` -/

@[simp] theorem State.refuse_st : (s.refuse).st = s.st := rfl
@[simp] theorem State.refuse_cs : (s.refuse).cs = s.cs := rfl
@[simp] theorem State.refuse_dc : (s.refuse).dc = s.dc := rfl
@[simp] theorem State.refuse_rst : (s.refuse).rst = s.rst := rfl
@[simp] theorem State.refuse_win : (s.refuse).win = s.win := rfl
@[simp] theorem State.refuse_fb : (s.refuse).fb = s.fb := rfl
@[simp] theorem State.refuse_log : (s.refuse).log = s.log := rfl
@[simp] theorem State.refuse_rp : (s.refuse).rp = s.rp + 1 := rfl
@[simp] theorem State.refuse_seq : (s.refuse).seq = s.seq := rfl
@[simp] theorem State.refuse_cfg : (s.refuse).cfg = s.cfg := rfl
@[simp] theorem State.refuse_port : (s.refuse).port = s.port := rfl
@[simp] theorem State.refuse_resps : (s.refuse).resps = s.resps := rfl
@[simp] theorem State.refuse_refused : (s.refuse).refused = true := rfl
@[simp] theorem State.refuse_draws : (s.refuse).draws = s.draws := rfl
@[simp] theorem State.refuse_drawNo : (s.refuse).drawNo = s.drawNo := rfl
@[simp] theorem State.refuse_drawAt (i : Nat) : (s.refuse).drawAt i = s.drawAt i := rfl

/-! ### `delay` -/

@[simp] theorem State.delay_st (ms : Nat) : (s.delay ms).st = s.st := rfl
@[simp] theorem State.delay_cs (ms : Nat) : (s.delay ms).cs = s.cs := rfl
@[simp] theorem State.delay_dc (ms : Nat) : (s.delay ms).dc = s.dc := rfl
@[simp] theorem State.delay_rst (ms : Nat) : (s.delay ms).rst = s.rst := rfl
@[simp] theorem State.delay_win (ms : Nat) : (s.delay ms).win = s.win := rfl
@[simp] theorem State.delay_fb (ms : Nat) : (s.delay ms).fb = s.fb := rfl
@[simp] theorem State.delay_log (ms : Nat) : (s.delay ms).log = s.log ++ [.delay ms] := rfl
@[simp] theorem State.delay_rp (ms : Nat) : (s.delay ms).rp = s.rp := rfl
@[simp] theorem State.delay_seq (ms : Nat) : (s.delay ms).seq = s.seq := rfl
@[simp] theorem State.delay_cfg (ms : Nat) : (s.delay ms).cfg = s.cfg := rfl
@[simp] theorem State.delay_port (ms : Nat) : (s.delay ms).port = s.port := rfl
@[simp] theorem State.delay_resps (ms : Nat) : (s.delay ms).resps = s.resps := rfl
@[simp] theorem State.delay_refused (ms : Nat) : (s.delay ms).refused = s.refused := rfl
@[simp] theorem State.delay_draws (ms : Nat) : (s.delay ms).draws = s.draws := rfl
@[simp] theorem State.delay_drawNo (ms : Nat) : (s.delay ms).drawNo = s.drawNo := rfl
@[simp] theorem State.delay_drawAt (ms : Nat) (i : Nat) : (s.delay ms).drawAt i = s.drawAt i := rfl

/-! ### `dropDraws` -/

@[simp] theorem State.dropDraws_st (n : Nat) : (s.dropDraws n).st = s.st := rfl
@[simp] theorem State.dropDraws_cs (n : Nat) : (s.dropDraws n).cs = s.cs := rfl
@[simp] theorem State.dropDraws_dc (n : Nat) : (s.dropDraws n).dc = s.dc := rfl
@[simp] theorem State.dropDraws_rst (n : Nat) : (s.dropDraws n).rst = s.rst := rfl
@[simp] theorem State.dropDraws_win (n : Nat) : (s.dropDraws n).win = s.win := rfl
@[simp] theorem State.dropDraws_fb (n : Nat) : (s.dropDraws n).fb = s.fb := rfl
@[simp] theorem State.dropDraws_log (n : Nat) : (s.dropDraws n).log = s.log := rfl
@[simp] theorem State.dropDraws_rp (n : Nat) : (s.dropDraws n).rp = s.rp := rfl
@[simp] theorem State.dropDraws_seq (n : Nat) : (s.dropDraws n).seq = s.seq := rfl
@[simp] theorem State.dropDraws_cfg (n : Nat) : (s.dropDraws n).cfg = s.cfg := rfl
@[simp] theorem State.dropDraws_port (n : Nat) : (s.dropDraws n).port = s.port := rfl
@[simp] theorem State.dropDraws_resps (n : Nat) : (s.dropDraws n).resps = s.resps := rfl
@[simp] theorem State.dropDraws_refused (n : Nat) : (s.dropDraws n).refused = s.refused := rfl
@[simp] theorem State.dropDraws_draws (n : Nat) : (s.dropDraws n).draws = s.draws.drop n := rfl
@[simp] theorem State.dropDraws_drawNo (n : Nat) : (s.dropDraws n).drawNo = s.drawNo + (n - s.draws.length) := rfl

/-! ### `dropDraw` -/

@[simp] theorem State.dropDraw_st : s.dropDraw.st = s.st := by
  unfold State.dropDraw; split <;> rfl
@[simp] theorem State.dropDraw_cs : s.dropDraw.cs = s.cs := by
  unfold State.dropDraw; split <;> rfl
@[simp] theorem State.dropDraw_dc : s.dropDraw.dc = s.dc := by
  unfold State.dropDraw; split <;> rfl
@[simp] theorem State.dropDraw_rst : s.dropDraw.rst = s.rst := by
  unfold State.dropDraw; split <;> rfl
@[simp] theorem State.dropDraw_win : s.dropDraw.win = s.win := by
  unfold State.dropDraw; split <;> rfl
@[simp] theorem State.dropDraw_fb : s.dropDraw.fb = s.fb := by
  unfold State.dropDraw; split <;> rfl
@[simp] theorem State.dropDraw_log : s.dropDraw.log = s.log := by
  unfold State.dropDraw; split <;> rfl
@[simp] theorem State.dropDraw_rp : s.dropDraw.rp = s.rp := by
  unfold State.dropDraw; split <;> rfl
@[simp] theorem State.dropDraw_seq : s.dropDraw.seq = s.seq := by
  unfold State.dropDraw; split <;> rfl
@[simp] theorem State.dropDraw_cfg : s.dropDraw.cfg = s.cfg := by
  unfold State.dropDraw; split <;> rfl
@[simp] theorem State.dropDraw_port : s.dropDraw.port = s.port := by
  unfold State.dropDraw; split <;> rfl
@[simp] theorem State.dropDraw_resps : s.dropDraw.resps = s.resps := by
  unfold State.dropDraw; split <;> rfl
@[simp] theorem State.dropDraw_refused : s.dropDraw.refused = s.refused := by
  unfold State.dropDraw; split <;> rfl

/-- Using up one draw is using up the first of those ahead. -/
theorem State.dropDraw_eq : s.dropDraw = s.dropDraws 1 := by
  unfold State.dropDraw State.dropDraws
  cases s with
  | mk st cs dc rst win fb log rp seq cfg port resps refused draws drawNo => cases draws <;> simp

/-- The next frame's draw is the first of those ahead. -/
theorem State.nextDraw_eq : s.nextDraw = s.drawAt 0 := by
  unfold State.nextDraw State.drawAt
  cases s.draws <;> simp

@[simp] theorem State.dropDraws_zero : s.dropDraws 0 = s := by
  simp [State.dropDraws]

@[simp] theorem State.dropDraws_dropDraws (m n : Nat) : (s.dropDraws m).dropDraws n = s.dropDraws (m + n) := by
  simp only [State.dropDraws, List.drop_drop, List.length_drop, State.mk.injEq, true_and]
  omega

@[simp] theorem State.dropDraws_drawAt (m n : Nat) : (s.dropDraws m).drawAt n = s.drawAt (m + n) := by
  unfold State.drawAt
  simp only [State.dropDraws_draws, State.dropDraws_drawNo, List.getElem?_drop, List.length_drop]
  cases h : s.draws[m + n]? with
  | some d => rfl
  | none =>
    have : s.draws.length ≤ m + n := by simpa using h
    simp only
    congr 1
    omega

/-- No bus fault in the next `m + n` frames is none in the next `m` and none in the `n` after them. -/
theorem State.noBusFault_add (m n : Nat) :
    s.noBusFault (m + n) ↔ s.noBusFault m ∧ (s.dropDraws m).noBusFault n := by
  constructor
  · intro h
    refine ⟨fun i hi => h i (by omega), fun i hi => ?_⟩
    rw [State.dropDraws_drawAt]
    exact h _ (by omega)
  · intro ⟨h₁, h₂⟩ i hi
    by_cases him : i < m
    · exact h₁ i him
    · have := h₂ (i - m) (by omega)
      rwa [State.dropDraws_drawAt, Nat.add_sub_cancel' (by omega)] at this

end Sys2Proof.Machine
end

