-- ==== Sys2Proof/Laws/Framer.lean ====
section
/-! SUPPORT. What one frame can do, said once (40_framer.md rules R100, R104): it completes exactly when its draw fails no
byte, and a fault lets out the frame's opening and its first `k` bytes. Later proofs cite these and never unfold `frame`. -/

namespace Sys2Proof.Machine

theorem frame_completes (m : Mode) (bs : List Byte) (s : State) (h : faultAt (s.drawAt 0) bs.length = none) :
    frame m bs s = .ok (afterFrame m bs s) := by
  unfold frame
  rw [State.nextDraw_eq, h]
  simp [afterFrame, State.dropDraw_eq, State.openBracket, State.sendBytes, State.driveCs, State.driveDc, State.setSeq,
    State.emit]

theorem frame_fails (m : Mode) (bs : List Byte) (s : State) (k : Nat) (h : faultAt (s.drawAt 0) bs.length = some k) :
    frame m bs s = .raise .busTransfer (afterFault m bs k s) := by
  unfold frame
  rw [State.nextDraw_eq, h]
  cases hc : (s.drawAt 0).csf <;>
  simp [afterFault, failedFrame, State.dropDraw_eq, State.openBracket, State.sendBytes, State.driveCs, State.driveDc,
    State.setSeq, State.emit, State.failBracket, hc]

theorem faultAt_none_of_bf {d : BusDraw} (h : d.bf = none) (n : Nat) : faultAt d n = none := by
  simp [faultAt, h]

theorem faultAt_none_of_beyond {d : BusDraw} {n : Nat} (h : ∀ k, d.bf = some k → n < k) : faultAt d n = none := by
  unfold faultAt
  split
  · rfl
  · rename_i k hk
    rw [if_neg (by have := h k hk; omega)]

theorem faultAt_some_of_bf {d : BusDraw} {k n : Nat} (h : d.bf = some k) (hk : k ≤ n) : faultAt d n = some k := by
  simp [faultAt, h, hk]

theorem faultAt_le {d : BusDraw} {k n : Nat} (h : faultAt d n = some k) : k ≤ n := by
  unfold faultAt at h
  split at h
  · cases h
  · split at h
    · cases h; assumption
    · cases h

theorem faultAt_bf {d : BusDraw} {k n : Nat} (h : faultAt d n = some k) : d.bf = some k := by
  unfold faultAt at h
  split at h
  · cases h
  · rename_i hk
    split at h
    · cases h; exact hk
    · cases h

/-- Everything a frame can do. -/
theorem frame_cases (m : Mode) (bs : List Byte) (s : State) :
    frame m bs s = .ok (afterFrame m bs s) ∨
    ∃ k, k ≤ bs.length ∧ faultAt (s.drawAt 0) bs.length = some k ∧
      frame m bs s = .raise .busTransfer (afterFault m bs k s) := by
  cases h : faultAt (s.drawAt 0) bs.length with
  | none => exact .inl (frame_completes m bs s h)
  | some k => exact .inr ⟨k, faultAt_le h, rfl, frame_fails m bs s k h⟩

/-! ### Stretches of a request -/

/-- `P` of the state a stretch completes in, or `Q` of the state it raises in. -/
def Res.Sat (r : Res) (P : State → Prop) (Q : Err → State → Prop) : Prop :=
  match r with
  | .ok s => P s
  | .raise e s => Q e s

@[simp] theorem Res.sat_ok (s : State) (P : State → Prop) (Q : Err → State → Prop) : (Res.ok s).Sat P Q = P s := rfl

@[simp] theorem Res.sat_raise (e : Err) (s : State) (P : State → Prop) (Q : Err → State → Prop) :
    (Res.raise e s).Sat P Q = Q e s := rfl

theorem Res.sat_andThen {r : Res} {f : State → Res} {P : State → Prop} {Q : Err → State → Prop}
    (h : r.Sat (fun s => (f s).Sat P Q) Q) : (r.andThen f).Sat P Q := by
  cases r <;> exact h

theorem Res.sat_mono {r : Res} {P P' : State → Prop} {Q Q' : Err → State → Prop} (h : r.Sat P Q)
    (hP : ∀ s, P s → P' s) (hQ : ∀ e s, Q e s → Q' e s) : r.Sat P' Q' := by
  cases r with
  | ok s => exact hP s h
  | raise e s => exact hQ e s h

@[simp] theorem Res.andThen_ok (s : State) (f : State → Res) : (Res.ok s).andThen f = f s := rfl

@[simp] theorem Res.andThen_raise (e : Err) (s : State) (f : State → Res) :
    (Res.raise e s).andThen f = .raise e s := rfl

theorem frame_sat (m : Mode) (bs : List Byte) (s : State) {P : State → Prop} {Q : Err → State → Prop}
    (hok : P (afterFrame m bs s))
    (hfault : ∀ k, k ≤ bs.length → Q .busTransfer (afterFault m bs k s)) : (frame m bs s).Sat P Q := by
  rcases frame_cases m bs s with h | ⟨k, hk, -, h⟩
  · rw [h]; exact hok
  · rw [h]; exact hfault k hk

end Sys2Proof.Machine
end

