-- ==== Sys2Proof/Laws/Runs.lean ====
section
/-! SUPPORT. What a stretch of frames can do, said once: with no bus fault it ends in one known state (`ran`), and however
it goes it logs its event list or a part of it and touches nothing but the lines, the log, the sequencer position and the
draws (`Traces`). One lemma of each kind per operation of the init sequencer and the window decoder. -/

namespace Sys2Proof.Machine

/-! ### With no bus fault -/

/-- The state after a stretch of `n` frames that logged `es`, and the lines and the position it left. -/
def ran (s : State) (n : Nat) (es : List Event) (cs : Bool) (dc : Option Mode) (seq : SeqPos) : State :=
  { s.dropDraws n with cs := cs, dc := dc, log := s.log ++ es, seq := seq }

@[simp] theorem ran_ran (s : State) (n n' : Nat) (es es' : List Event) (c c' : Bool) (d d' : Option Mode)
    (q q' : SeqPos) : ran (ran s n es c d q) n' es' c' d' q' = ran s (n + n') (es ++ es') c' d' q' := by
  have h := State.dropDraws_dropDraws s n n'
  simp only [State.dropDraws, State.mk.injEq, true_and] at h
  simp [ran, State.dropDraws, h.1]
  omega

@[simp] theorem ran_drawAt (s : State) (n i : Nat) (es : List Event) (c : Bool) (d : Option Mode) (q : SeqPos) :
    (ran s n es c d q).drawAt i = s.drawAt (n + i) := State.dropDraws_drawAt s n i

theorem ran_noBusFault {s : State} {n k : Nat} {es : List Event} {c : Bool} {d : Option Mode} {q : SeqPos}
    (h : s.noBusFault (n + k)) : (ran s n es c d q).noBusFault k := by
  intro i hi
  rw [ran_drawAt]
  exact h _ (by omega)

theorem ran_seq (s : State) (n : Nat) (es : List Event) (c : Bool) (d : Option Mode) (q : SeqPos) :
    (ran s n es c d q).seq = q := rfl

theorem ran_cfg (s : State) (n : Nat) (es : List Event) (c : Bool) (d : Option Mode) (q : SeqPos) :
    (ran s n es c d q).cfg = s.cfg := rfl

theorem ran_delay (s : State) (n ms : Nat) (es : List Event) (c : Bool) (d : Option Mode) (q : SeqPos) :
    (ran s n es c d q).delay ms = ran s n (es ++ [.delay ms]) c d q := by
  simp [ran, State.delay, State.emit]

theorem State.noBusFault_mono {s : State} {m n : Nat} (h : s.noBusFault n) (hmn : m ≤ n) : s.noBusFault m :=
  fun i hi => h i (by omega)

theorem frame_ran (m : Mode) (bs : List Byte) {s : State} (h : s.noBusFault 1) :
    frame m bs s = .ok (ran s 1 ([.cs true, .dc m] ++ bs.map .byte ++ [.cs false]) false (some m)
      (.busy s.seq.nextFrame bs.length)) :=
  frame_completes m bs s (faultAt_none_of_bf (h 0 (by omega)) _)

theorem commandThenDelay_ran (op : Byte) (ms : Nat) {s : State} (h : s.noBusFault 1) :
    commandThenDelay op ms s = .ok (ran s 1 (commandFrame op ++ [.delay ms]) false (some .command)
      (.busy s.seq.nextFrame 1)) := by
  rw [commandThenDelay, frame_ran _ _ h, Res.andThen_ok, ran_delay]
  rfl

/-- A command frame followed by a data frame. -/
theorem commandData_ran (op : Byte) (bs : List Byte) {s : State} (h : s.noBusFault 2) :
    (frame .command [op] s).andThen (frame .data bs) =
      .ok (ran s 2 (commandFrame op ++ dataFrame bs) false (some .data)
        (.busy (s.seq.nextFrame + 1) bs.length)) := by
  rw [frame_ran _ _ (State.noBusFault_mono h (by omega)), Res.andThen_ok,
    frame_ran _ _ (ran_noBusFault (n := 1) h), ran_ran]
  rfl

theorem regcmd_ran (rc : RegCmd) {s : State} (h : s.noBusFault (regcmdFrames rc)) :
    ∃ d q, regcmd rc.op rc.payload s = .ok (ran s (regcmdFrames rc) (regcmdEvents rc) false d q) := by
  obtain ⟨op, p⟩ := rc
  match p with
  | none => exact ⟨_, _, by simpa [regcmd, regcmdFrames, regcmdEvents, commandFrame] using frame_ran .command [op] h⟩
  | some [] => exact ⟨_, _, by simpa [regcmd, regcmdFrames, regcmdEvents, commandFrame] using frame_ran .command [op] h⟩
  | some (b :: bs) =>
    exact ⟨_, _, by simpa [regcmd, regcmdFrames, regcmdEvents] using commandData_ran op (b :: bs) h⟩

theorem replayTable_ran (table : List RegCmd) {s : State} (h : s.noBusFault (table.map regcmdFrames).sum) :
    ∃ c d q, replayTable table s = .ok (ran s (table.map regcmdFrames).sum (table.flatMap regcmdEvents) c d q) := by
  induction table generalizing s with
  | nil => exact ⟨s.cs, s.dc, s.seq, by simp [replayTable, ran]⟩
  | cons rc rest ih =>
    simp only [List.map_cons, List.sum_cons] at h
    obtain ⟨d, q, h1⟩ := regcmd_ran rc (State.noBusFault_mono h (by omega))
    obtain ⟨c', d', q', h2⟩ := ih (ran_noBusFault (c := false) (d := d) (q := q) (es := regcmdEvents rc) h)
    exact ⟨c', d', q', by rw [replayTable, h1, Res.andThen_ok, h2]; simp⟩

theorem resetStep_ran {s : State} (h : s.noBusFault (resetFrames s.cfg)) :
    ∃ c d q, resetStep s = .ok (ran (if s.cfg.hasRst then { s with rst := some .high } else s) (resetFrames s.cfg)
      (resetEvents s.cfg) c d q) := by
  cases hr : s.cfg.hasRst
  · simp only [resetFrames, hr, Bool.false_eq_true, if_false] at h
    refine ⟨false, some .command, .busy s.seq.nextFrame 1, ?_⟩
    simp only [resetStep, hr, sendSwreset, Bool.false_eq_true, if_false]
    rw [commandThenDelay_ran _ _ h]
    simp [resetFrames, resetEvents, hr, opSwreset]
  · refine ⟨s.cs, s.dc, s.seq, ?_⟩
    simp [resetStep, hr, pulseRst, State.driveRst, State.delay, State.emit, ran, State.dropDraws, resetFrames,
      resetEvents]

/-! ### However it goes -/

/-- What no frame touches. -/
structure SameButLines (s t : State) : Prop where
  st : t.st = s.st
  rst : t.rst = s.rst
  win : t.win = s.win
  fb : t.fb = s.fb
  rp : t.rp = s.rp
  cfg : t.cfg = s.cfg
  port : t.port = s.port
  resps : t.resps = s.resps
  refused : t.refused = s.refused

theorem SameButLines.rfl' (s : State) : SameButLines s s := ⟨rfl, rfl, rfl, rfl, rfl, rfl, rfl, rfl, rfl⟩

theorem SameButLines.trans {s t u : State} (h : SameButLines s t) (h' : SameButLines t u) : SameButLines s u :=
  ⟨h'.st.trans h.st, h'.rst.trans h.rst, h'.win.trans h.win, h'.fb.trans h.fb, h'.rp.trans h.rp, h'.cfg.trans h.cfg,
    h'.port.trans h.port, h'.resps.trans h.resps, h'.refused.trans h.refused⟩

/-- `t` comes after `s` and the events `es`, and each `CS(true)` of `es` has used up one draw. -/
structure Logged (s t : State) (es : List Event) : Prop where
  log : t.log = s.log ++ es
  drawAt : ∀ j, t.drawAt j = s.drawAt (es.count (.cs true) + j)

theorem Logged.refl (s : State) : Logged s s [] := ⟨by simp, by simp⟩

theorem Logged.trans {s t u : State} {es es' : List Event} (h : Logged s t es) (h' : Logged t u es') :
    Logged s u (es ++ es') :=
  ⟨by rw [h'.log, h.log, List.append_assoc], fun j => by rw [h'.drawAt, h.drawAt, List.count_append, Nat.add_assoc]⟩

theorem FrameFailed.after {s t u : State} {es es' : List Event} (h : Logged s t es) (h' : FrameFailed t u es') :
    FrameFailed s u (es ++ es') := by
  obtain ⟨before, m, bs, k, hp, hk, hdraw, hdc, hlog⟩ := h'
  refine ⟨es ++ before, m, bs, k, ?_, hk, ?_, hdc, by rw [hlog, h.log]; simp⟩
  · rw [List.append_assoc]; exact (List.prefix_append_right_inj es).mpr hp
  · rw [List.count_append, ← h.drawAt, hdraw]

theorem FrameFailed.mono {s t : State} {es es' : List Event} (h : FrameFailed s t es) (hes : es <+: es') :
    FrameFailed s t es' := by
  obtain ⟨before, m, bs, k, hp, h⟩ := h
  exact ⟨before, m, bs, k, hp.trans hes, h⟩

theorem FrameFailed.dc {s t : State} {es : List Event} (h : FrameFailed s t es) : t.dc ≠ none := by
  obtain ⟨_, _, _, _, _, _, _, hdc, _⟩ := h
  simp [hdc]

/-- What a bus fault leaves in the log is a part of the full event list from its start, closed unless CS is asserted. -/
theorem FrameFailed.log {s t : State} {es : List Event} (h : FrameFailed s t es) :
    ∃ p, p <+: es ∧ t.log = s.log ++ p ++ (if t.cs then [] else [.cs false]) := by
  obtain ⟨before, m, bs, k, hp, -, -, -, hlog⟩ := h
  refine ⟨before ++ ([.cs true, .dc m] ++ (bs.take k).map .byte), ?_, by simp [hlog, failedFrame]⟩
  refine ((List.prefix_append_right_inj before).mpr ?_).trans hp
  exact ((List.prefix_append_right_inj _).mpr (List.IsPrefix.map Event.byte (List.take_prefix k bs))).trans
    (List.prefix_append _ _)

/-- A stretch that logs `es`: completed it logged all of it, or a bus fault broke one of its frames. -/
def Traces (s : State) (es : List Event) (r : Res) : Prop :=
  r.Sat (fun t => SameButLines s t ∧ Logged s t es)
    (fun e t => e = .busTransfer ∧ SameButLines s t ∧ FrameFailed s t es)

theorem Traces.andThen {s : State} {es es' : List Event} {r : Res} {f : State → Res} (h : Traces s es r)
    (h' : ∀ t, SameButLines s t → Traces t es' (f t)) : Traces s (es ++ es') (r.andThen f) := by
  cases r with
  | ok t =>
    obtain ⟨h1, h2⟩ := h
    have := h' t h1
    show Traces s (es ++ es') (f t)
    unfold Traces at this ⊢
    refine Res.sat_mono this (fun u hu => ⟨h1.trans hu.1, h2.trans hu.2⟩) ?_
    rintro e u ⟨he, hs, hf⟩
    exact ⟨he, h1.trans hs, hf.after h2⟩
  | raise e t =>
    obtain ⟨he, hs, hf⟩ := h
    exact ⟨he, hs, hf.mono (List.prefix_append es es')⟩

theorem count_bytes (bs : List Byte) : (bs.map Event.byte).count (.cs true) = 0 := by
  rw [List.count_eq_zero]
  simp

theorem traces_frame (m : Mode) (bs : List Byte) (s : State) :
    Traces s ([.cs true, .dc m] ++ bs.map .byte ++ [.cs false]) (frame m bs s) := by
  rcases frame_cases m bs s with h | ⟨k, hk, hf, h⟩
  · rw [h]
    refine ⟨⟨rfl, rfl, rfl, rfl, rfl, rfl, rfl, rfl, rfl⟩, rfl, fun j => ?_⟩
    rw [show ([.cs true, .dc m] ++ bs.map .byte ++ [.cs false] : List Event).count (.cs true) = 1 by
      simp [count_bytes]]
    exact State.dropDraws_drawAt s 1 j
  · rw [h]
    refine ⟨rfl, ⟨rfl, rfl, rfl, rfl, rfl, rfl, rfl, rfl, rfl⟩, [], m, bs, k, by simp, hk, ?_, rfl, by simp [afterFault]⟩
    have hbf := faultAt_bf hf
    show s.drawAt 0 = ⟨some k, (s.drawAt 0).csf⟩
    rw [← hbf]

theorem traces_delay (s : State) (ms : Nat) : Traces s [.delay ms] (.ok (s.delay ms)) :=
  ⟨⟨rfl, rfl, rfl, rfl, rfl, rfl, rfl, rfl, rfl⟩, rfl, fun j => by simp⟩

theorem traces_commandThenDelay (op : Byte) (ms : Nat) (s : State) :
    Traces s (commandFrame op ++ [.delay ms]) (commandThenDelay op ms s) :=
  (traces_frame .command [op] s).andThen fun t _ => traces_delay t ms

theorem traces_commandData (op : Byte) (bs : List Byte) (s : State) :
    Traces s (commandFrame op ++ dataFrame bs) ((frame .command [op] s).andThen (frame .data bs)) :=
  (traces_frame .command [op] s).andThen fun t _ => traces_frame .data bs t

theorem traces_regcmd (rc : RegCmd) (s : State) : Traces s (regcmdEvents rc) (regcmd rc.op rc.payload s) := by
  obtain ⟨op, p⟩ := rc
  match p with
  | none => simpa [regcmd, regcmdEvents, commandFrame] using traces_frame .command [op] s
  | some [] => simpa [regcmd, regcmdEvents, commandFrame] using traces_frame .command [op] s
  | some (b :: bs) => simpa [regcmd, regcmdEvents] using traces_commandData op (b :: bs) s

theorem traces_replayTable (table : List RegCmd) (s : State) :
    Traces s (table.flatMap regcmdEvents) (replayTable table s) := by
  induction table generalizing s with
  | nil => exact ⟨SameButLines.rfl' s, Logged.refl s⟩
  | cons rc rest ih =>
    rw [List.flatMap_cons]
    exact (traces_regcmd rc s).andThen fun t _ => ih t

theorem traces_configurePanel (s : State) :
    Traces s (s.cfg.initTable.flatMap regcmdEvents ++ (commandFrame s.cfg.madctlOpcode ++ dataFrame [s.cfg.orient]))
      (configurePanel s) :=
  (traces_replayTable s.cfg.initTable s).andThen fun t ht => by
    rw [← ht.cfg]
    exact traces_commandData t.cfg.madctlOpcode [t.cfg.orient] t

/-! ### Runs of steps -/

theorem core_run_succ (M : Host.Core) (k : Nat) (s t : M.State) (h : M.step s = .next t) :
    M.run (k + 1) s = M.run k t := by
  simp [Host.Core.run, h]

/-- One step of a run, in the machine's own names. -/
theorem run_succ (k : Nat) (s t : State) (h : step s = .next t) :
    Host.Core.run Sys2Proof.core (k + 1) s = Host.Core.run Sys2Proof.core k t :=
  core_run_succ Sys2Proof.core k s t h

/-- `exec` answers a next state for every instruction: an error is a next state too (60_exceptions.md R209, R210). -/
theorem exec_next (i : Instr) (s : State) : ∃ t, exec i s = .next t := by
  cases i <;> exact ⟨_, rfl⟩

end Sys2Proof.Machine
end

