-- ==== Sys2Proof/Laws/Exec.lean ====
section
/-! SUPPORT. What `exec` can do, said once for every instruction (`exec_cases`): refuse, answer an error before doing
anything, end by a bus fault, or complete. The whole-machine rules follow from these four cases without unfolding a
meaning again. -/

namespace Sys2Proof.Machine

/-- The four requests behind the Ready gate (60_exceptions.md R202). -/
def isGated : Instr → Bool
  | .present => true
  | .setpx _ _ _ => true
  | .fill _ => true
  | .blit _ _ _ _ _ => true
  | _ => false

/-- The three requests that write the frame memory (20_memory.md R51). -/
def isDrawing : Instr → Bool
  | .setpx _ _ _ => true
  | .fill _ => true
  | .blit _ _ _ _ _ => true
  | _ => false

/-- `st` after an instruction that completed (10_state.md R30). -/
def stAfter (s : State) : Instr → CtrlState
  | .reset => .uninitialized
  | .init => .ready
  | _ => s.st

/-- The value of a completed request's response (30_encoding.md R80). -/
def valueOf (s : State) : Instr → Option Word16
  | .getpx x y => some (readPixel s.cfg s.fb (pixelAddr s.cfg x.toNat y.toNat))
  | .rgb565 r g b => some (packRgb565 r g b)
  | _ => none

/-- `win` may have been written by PRESENT. -/
def WinMay (s t : State) (i : Instr) : Prop :=
  t.win = s.win ∨ (i = .present ∧ s.st = .ready ∧ t.win = some (fullWindow s.cfg) ∧ (fullWindow s.cfg).valid s.cfg = true)

/-- `rst` may have been driven by the reset step. -/
def RstMay (s t : State) (i : Instr) : Prop :=
  t.rst = s.rst ∨ (s.cfg.hasRst = true ∧ (i = .reset ∨ i = .init) ∧ t.rst = some .high)

/-- What a bus fault leaves (60_exceptions.md R206). -/
structure BusFaulted (s t : State) (i : Instr) : Prop where
  running : s.st ≠ .faulted
  st : t.st = .uninitialized
  resps : t.resps = s.resps ++ [[0x40]]
  rp : t.rp = s.rp + 1
  seq : t.seq = .idle
  fb : t.fb = s.fb
  cfg : t.cfg = s.cfg
  port : t.port = s.port
  refused : t.refused = s.refused
  win : t.win = if i = .present then some (fullWindow s.cfg) else s.win
  window : i = .present → s.st = .ready ∧ (fullWindow s.cfg).valid s.cfg = true
  rst : t.rst = if i = .init ∧ s.cfg.hasRst = true then some .high else s.rst
  frame : FrameFailed s t (fullEvents s i)

theorem BusFaulted.winMay {s t : State} {i : Instr} (h : BusFaulted s t i) : WinMay s t i := by
  by_cases hi : i = .present
  · exact .inr ⟨hi, (h.window hi).1, by simpa [hi] using h.win, (h.window hi).2⟩
  · exact .inl (by simpa [hi] using h.win)

theorem BusFaulted.rstMay {s t : State} {i : Instr} (h : BusFaulted s t i) : RstMay s t i := by
  by_cases hi : i = .init ∧ s.cfg.hasRst = true
  · exact .inr ⟨hi.2, .inr hi.1, by simpa [hi] using h.rst⟩
  · exact .inl (by simpa [hi] using h.rst)

theorem BusFaulted.dc {s t : State} {i : Instr} (h : BusFaulted s t i) : t.dc ≠ none := h.frame.dc

theorem BusFaulted.log {s t : State} {i : Instr} (h : BusFaulted s t i) :
    ∃ p, p <+: fullEvents s i ∧ t.log = s.log ++ p ++ (if t.cs then [] else [.cs false]) := h.frame.log

/-- What an instruction that completes leaves. -/
structure Completed (s t : State) (i : Instr) : Prop where
  running : (∀ r g b, i ≠ .rgb565 r g b) → s.st ≠ .faulted
  gate : isGated i = true → s.st = .ready
  st : t.st = stAfter s i
  answer : i.isRequest = true →
    t.resps = s.resps ++ [responseBytes none t.st (valueOf s i)] ∧ t.rp = s.rp + 1 ∧ t.seq = .idle
  noAnswer : i.isRequest = false → t.resps = s.resps ∧ t.rp = s.rp
  fb : isDrawing i = true ∨ t.fb = s.fb
  cfg : t.cfg = s.cfg
  port : t.port = s.port
  refused : t.refused = s.refused
  win : WinMay s t i
  rst : RstMay s t i
  log : t.log = s.log ++ fullEvents s i
  window : i = .present → t.win = some (fullWindow s.cfg) ∧ (fullWindow s.cfg).valid s.cfg = true

/-- The four things an instruction can do. -/
inductive ExecCase (s t : State) (i : Instr) : Prop
  | refused (x y w h : Word16) (pix : List Byte) (hi : i = .blit x y w h pix)
      (hlen : pix.length ≠ 2 * w.toNat * h.toNat) (ht : t = s.refusedOnce)
  | early (e : Err) (he : e ≠ .busTransfer) (hcfg : s.st = .faulted ↔ e = .configuration)
      (hrgb : ∀ r g b, i ≠ .rgb565 r g b) (hinit : e = .initialization → isGated i = true ∧ s.st ≠ .ready)
      (ht : t = s.answered [statusByte (some e) s.st])
  | bus (h : BusFaulted s t i)
  | done (h : Completed s t i)

/-! ### The gates -/

theorem faultedGate_raises {s : State} (h : s.st = .faulted) : faultedGate s = .raise .configuration s := by
  simp [faultedGate, h]

theorem faultedGate_passes {s : State} (h : s.st ≠ .faulted) : faultedGate s = .ok s := by
  simp [faultedGate, h]

theorem drawGate_faulted {s : State} (h : s.st = .faulted) : drawGate s = .raise .configuration s := by
  simp [drawGate, faultedGate_raises h]

theorem drawGate_notReady {s : State} (h : s.st ≠ .faulted) (h' : s.st ≠ .ready) :
    drawGate s = .raise .initialization s := by
  simp [drawGate, faultedGate_passes h, readyGate, h']

theorem drawGate_ready {s : State} (h : s.st = .ready) : drawGate s = .ok s := by
  simp [drawGate, faultedGate, readyGate, h]

/-! ### Taking an error -/

theorem takeError_early {s : State} {e : Err} (h : e ≠ .busTransfer) :
    s.takeError e = s.answered [statusByte (some e) s.st] := by
  simp [State.takeError, h, State.respond, State.answered, responseBytes]

theorem takeError_bus (s : State) :
    s.takeError .busTransfer = State.answered { s with st := .uninitialized } [0x40] := by
  simp only [State.takeError, if_true, State.respond, State.answered, responseBytes, State.setSt]
  rfl

/-- A bus fault in a stretch that only frames have changed, after the reset line and `win` may have been written. -/
theorem busFaulted_of {s s' u : State} {i : Instr} (hs : s.st ≠ .faulted) (hfb : s'.fb = s.fb) (hcfg : s'.cfg = s.cfg)
    (hport : s'.port = s.port) (hresps : s'.resps = s.resps) (hrp : s'.rp = s.rp) (href : s'.refused = s.refused)
    (hwin : s'.win = if i = .present then some (fullWindow s.cfg) else s.win)
    (hwindow : i = .present → s.st = .ready ∧ (fullWindow s.cfg).valid s.cfg = true)
    (hrst : s'.rst = if i = .init ∧ s.cfg.hasRst = true then some .high else s.rst) (hu : SameButLines s' u)
    (hframe : FrameFailed s u (fullEvents s i)) :
    BusFaulted s (u.takeError .busTransfer) i := by
  rw [takeError_bus]
  refine ⟨hs, rfl, ?_, ?_, rfl, hu.fb.trans hfb, hu.cfg.trans hcfg, hu.port.trans hport, hu.refused.trans href,
    hu.win.trans hwin, hwindow, hu.rst.trans hrst, hframe⟩
  · simp [State.answered, hu.resps, hresps]
  · simp [State.answered, hu.rp, hrp]

theorem ne_present {i : Instr} (h : isGated i = false) : i ≠ .present := by
  rintro rfl
  cases h

/-- A request whose whole work is one traced stretch of frames: CMD and DATA. -/
theorem frames_cases {s t : State} {i : Instr} {f : State → Res} (hreq : i.isRequest = true)
    (hgate : isGated i = false) (hinit : i ≠ .init) (hst : ∀ s, stAfter s i = s.st) (hval : ∀ s, valueOf s i = none)
    (hrgb : ∀ r g b, i ≠ .rgb565 r g b) (hf : Traces s (fullEvents s i) (f s))
    (ht : complete ((faultedGate s).andThen f) = t) : ExecCase s t i := by
  subst ht
  by_cases h : s.st = .faulted
  · rw [faultedGate_raises h]
    exact .early .configuration (by decide) (by simp [h]) hrgb (by simp) (takeError_early (by decide))
  · rw [faultedGate_passes h, Res.andThen_ok]
    cases hr : f s with
    | ok u =>
      rw [hr] at hf
      obtain ⟨hu, hlog⟩ := hf
      refine .done ⟨fun _ => h, by simp [hgate], ?_, fun _ => ⟨?_, ?_, rfl⟩, by simp [hreq], .inr hu.fb, hu.cfg,
        hu.port, hu.refused, .inl hu.win, .inl hu.rst, hlog.log, fun hi => by subst hi; cases hgate⟩
      · rw [hst]; exact hu.st
      · simp [complete, hval, hu.resps]
      · simp [complete, hu.rp]
    | raise e u =>
      rw [hr] at hf
      obtain ⟨rfl, hu, hframe⟩ := hf
      exact .bus (busFaulted_of h rfl rfl rfl rfl rfl rfl (by rw [if_neg (ne_present hgate)])
        (fun hi => absurd hi (ne_present hgate)) (by rw [if_neg fun hi => hinit hi.1]) hu hframe)

/-- A wire command: one traced stretch of frames that is not answered. -/
theorem stage_cases {s t : State} {i : Instr} {f : State → Res} (hreq : i.isRequest = false)
    (hgate : isGated i = false) (hinit : i ≠ .init) (hst : ∀ s, stAfter s i = s.st) (hrgb : ∀ r g b, i ≠ .rgb565 r g b)
    (hf : Traces s (fullEvents s i) (f s)) (ht : stage ((faultedGate s).andThen f) = t) : ExecCase s t i := by
  subst ht
  by_cases h : s.st = .faulted
  · rw [faultedGate_raises h]
    exact .early .configuration (by decide) (by simp [h]) hrgb (by simp) (takeError_early (by decide))
  · rw [faultedGate_passes h, Res.andThen_ok]
    cases hr : f s with
    | ok u =>
      rw [hr] at hf
      obtain ⟨hu, hlog⟩ := hf
      exact .done ⟨fun _ => h, by simp [hgate], (hu.st.trans (hst s).symm), by simp [hreq], fun _ => ⟨hu.resps, hu.rp⟩,
        .inr hu.fb, hu.cfg, hu.port, hu.refused, .inl hu.win, .inl hu.rst, hlog.log, fun hi => by subst hi; cases hgate⟩
    | raise e u =>
      rw [hr] at hf
      obtain ⟨rfl, hu, hframe⟩ := hf
      exact .bus (busFaulted_of h rfl rfl rfl rfl rfl rfl (by rw [if_neg (ne_present hgate)])
        (fun hi => absurd hi (ne_present hgate)) (by rw [if_neg fun hi => hinit hi.1]) hu hframe)

/-! ### RESET and INIT -/

/-- What the reset step can do: the whole of `RESETPART`, or a bus fault in the SWRESET frame of a block without a reset
line. -/
theorem resetStep_cases (s : State) :
    (∃ u, resetStep s = .ok u ∧ u.st = s.st ∧ u.win = s.win ∧ u.fb = s.fb ∧ u.rp = s.rp ∧ u.cfg = s.cfg ∧
      u.port = s.port ∧ u.resps = s.resps ∧ u.refused = s.refused ∧ Logged s u (resetEvents s.cfg) ∧
      u.rst = (if s.cfg.hasRst = true then some .high else s.rst)) ∨
    (∃ u, resetStep s = .raise .busTransfer u ∧ SameButLines s u ∧ s.cfg.hasRst = false ∧
      FrameFailed s u (resetEvents s.cfg)) := by
  cases hr : s.cfg.hasRst
  · have h := traces_commandThenDelay opSwreset 50 s
    have e : resetStep s = commandThenDelay opSwreset 50 s := by simp [resetStep, hr, sendSwreset]
    have e' : resetEvents s.cfg = commandFrame opSwreset ++ [.delay 50] := by simp [resetEvents, hr, opSwreset]
    rw [e, e']
    cases hc : commandThenDelay opSwreset 50 s with
    | ok u =>
      rw [hc] at h
      obtain ⟨hu, hlog⟩ := h
      exact .inl ⟨u, rfl, hu.st, hu.win, hu.fb, hu.rp, hu.cfg, hu.port, hu.resps, hu.refused, hlog, by simpa using hu.rst⟩
    | raise e u =>
      rw [hc] at h
      obtain ⟨rfl, hu, hframe⟩ := h
      exact .inr ⟨u, rfl, hu, rfl, hframe⟩
  · refine .inl ⟨pulseRst s, by simp [resetStep, hr], rfl, rfl, rfl, rfl, rfl, rfl, rfl, rfl, ⟨?_, fun j => ?_⟩,
      rfl⟩
    · simp [pulseRst, State.driveRst, State.delay, State.emit, resetEvents, hr]
    · simp [pulseRst, resetEvents, hr]

theorem reset_cases (s : State) : ExecCase s (complete (runReset s)) .reset := by
  by_cases h : s.st = .faulted
  · rw [runReset, faultedGate_raises h]
    exact .early .configuration (by decide) (by simp [h]) (by simp) (by simp) (takeError_early (by decide))
  · rw [runReset, faultedGate_passes h, Res.andThen_ok]
    rcases resetStep_cases (s.setSt .resetting) with
      ⟨u, hr, -, hwin, hfb, hrp, hcfg, hport, hresps, href, hlog, hrst⟩ | ⟨u, hr, hu, hno, hframe⟩
    · rw [hr, Res.andThen_ok]
      refine .done ⟨fun _ => h, by simp [isGated], rfl, fun _ => ⟨?_, ?_, rfl⟩, by simp [Instr.isRequest], .inr hfb, hcfg,
        hport, href, .inl hwin, ?_, hlog.log, by simp⟩
      · simp only [complete, State.respond_resps, State.setSt_resps, hresps]; rfl
      · simp [complete, hrp]
      · cases hh : s.cfg.hasRst
        · exact .inl (by simpa [complete, hh] using hrst)
        · exact .inr ⟨hh, .inl rfl, by simpa [complete, hh] using hrst⟩
    · rw [hr, Res.andThen_raise]
      exact .bus (busFaulted_of (s' := s.setSt .resetting) h rfl rfl rfl rfl rfl rfl rfl (by simp) rfl hu hframe)

/-- INIT after its reset step: the configuring phase, sleep-out and display-on. -/
theorem traces_afterReset (s : State) :
    Traces s (s.cfg.initTable.flatMap regcmdEvents ++ (commandFrame s.cfg.madctlOpcode ++ dataFrame [s.cfg.orient])
      ++ (commandFrame 0x11 ++ [.delay 120]) ++ (commandFrame 0x29 ++ [.delay 50]))
      (((configurePanel s).andThen sendSlpout).andThen sendDispon) :=
  ((traces_configurePanel s).andThen fun t _ => traces_commandThenDelay opSlpout 120 t).andThen
    fun t _ => traces_commandThenDelay opDispon 50 t

theorem andThen_assoc (r : Res) (f g : State → Res) : (r.andThen f).andThen g = r.andThen fun s => (f s).andThen g := by
  cases r <;> rfl

theorem init_cases (s : State) : ExecCase s (complete (runInit s)) .init := by
  by_cases h : s.st = .faulted
  · rw [runInit, faultedGate_raises h]
    exact .early .configuration (by decide) (by simp [h]) (by simp) (by simp) (takeError_early (by decide))
  · rw [runInit, faultedGate_passes h, Res.andThen_ok]
    rcases resetStep_cases (s.setSt .resetting) with
      ⟨u, hr, -, hwin, hfb, hrp, hcfg, hport, hresps, href, hlog, hrst⟩ | ⟨u, hr, hu, hno, hframe⟩
    · rw [hr, Res.andThen_ok]
      have hcfg' : u.cfg = s.cfg := hcfg
      have hrst' : u.rst = if s.cfg.hasRst = true then some .high else s.rst := hrst
      have e : ((configurePanel (u.setSt .configuring)).andThen fun s =>
          (sendSlpout s).andThen fun s => (sendDispon s).andThen fun s => .ok (s.setSt .ready)) =
          (((configurePanel (u.setSt .configuring)).andThen sendSlpout).andThen sendDispon).andThen
            fun s => .ok (s.setSt .ready) := by
        simp only [andThen_assoc]
      rw [e]
      have tr := traces_afterReset (u.setSt .configuring)
      generalize ((configurePanel (u.setSt .configuring)).andThen sendSlpout).andThen sendDispon = r at tr ⊢
      have hev : fullEvents s .init = resetEvents s.cfg ++ (s.cfg.initTable.flatMap regcmdEvents
          ++ (commandFrame s.cfg.madctlOpcode ++ dataFrame [s.cfg.orient]) ++ (commandFrame 0x11 ++ [.delay 120])
          ++ (commandFrame 0x29 ++ [.delay 50])) := by
        simp [fullEvents, initEvents, List.append_assoc]
      have hlog' : Logged s u (resetEvents s.cfg) := ⟨hlog.log, hlog.drawAt⟩
      simp only [State.setSt_cfg, hcfg'] at tr
      cases r with
      | ok v =>
        obtain ⟨hv, hvlog⟩ := tr
        refine .done ⟨fun _ => h, by simp [isGated], rfl, fun _ => ⟨?_, ?_, rfl⟩, by simp [Instr.isRequest],
          .inr (hv.fb.trans hfb), hv.cfg.trans hcfg, hv.port.trans hport, hv.refused.trans href,
          .inl (hv.win.trans hwin), ?_, ?_, by simp⟩
        · simp only [Res.andThen_ok, complete, State.respond_resps, State.setSt_resps, hv.resps, hresps]; rfl
        · simp [complete, hv.rp, hrp]
        · have e := hv.rst
          simp only [State.setSt_rst] at e
          simp only [RstMay, Res.andThen_ok, complete, State.respond_rst, State.setSt_rst, e, hrst']
          cases s.cfg.hasRst <;> simp
        · simp only [Res.andThen_ok, complete, State.respond_log, State.setSt_log, hvlog.log, hlog'.log, hev, List.append_assoc]
      | raise e v =>
        obtain ⟨rfl, hv, hframe⟩ := tr
        refine .bus (busFaulted_of (s' := u.setSt .configuring) h hfb hcfg hport hresps hrp href hwin (by simp)
          (by simpa using hrst') hv ?_)
        rw [hev]
        exact FrameFailed.after (t := u.setSt .configuring) ⟨hlog'.log, hlog'.drawAt⟩ hframe
    · rw [hr, Res.andThen_raise]
      refine .bus (busFaulted_of (s' := s.setSt .resetting) h rfl rfl rfl rfl rfl rfl rfl (by simp)
        (by rw [if_neg (by simpa using hno)]; rfl) hu (hframe.mono ?_))
      simp only [fullEvents, initEvents, List.append_assoc]
      exact List.prefix_append _ _

/-! ### PRESENT -/

theorem present_cases (s : State) : ExecCase s (complete (runPresent s)) .present := by
  by_cases h : s.st = .faulted
  · rw [runPresent, drawGate_faulted h]
    exact .early .configuration (by decide) (by simp [h]) (by simp) (by simp) (takeError_early (by decide))
  by_cases hr : s.st = .ready
  · rw [runPresent, drawGate_ready hr, Res.andThen_ok]
    cases hv : (fullWindow s.cfg).valid s.cfg
    · simp only [setWindow, boundsGate, hv, Bool.false_eq_true, if_false, Res.andThen_raise]
      exact .early .outOfBounds (by decide) (by simp [h]) (by simp) (by simp) (takeError_early (by decide))
    · simp only [setWindow, boundsGate, hv, if_true, Res.andThen_ok]
      have tr : Traces (s.setWin (fullWindow s.cfg)) (fullEvents s .present)
          (((sendCaset (fullWindow s.cfg).colStart (fullWindow s.cfg).colEnd (s.setWin (fullWindow s.cfg))).andThen
            (sendPaset (fullWindow s.cfg).rowStart (fullWindow s.cfg).rowEnd)).andThen
            fun t => ramWrite t.frameBytes t) := by
        have hev : fullEvents s .present =
            (commandFrame opCaset ++ dataFrame (be16 (fullWindow s.cfg).colStart ++ be16 (fullWindow s.cfg).colEnd))
            ++ (commandFrame opPaset ++ dataFrame (be16 (fullWindow s.cfg).rowStart ++ be16 (fullWindow s.cfg).rowEnd))
            ++ (commandFrame opRamwr ++ dataFrame (memRead s.cfg s.fb 0 s.cfg.nFb)) := by
          have e : be16 0 = [0x00, 0x00] := by decide
          simp only [fullEvents, presentEvents, fullWindow, e, opCaset, opPaset, opRamwr]
        rw [hev]
        refine Traces.andThen (Traces.andThen (traces_commandData opCaset _ _) fun t _ => traces_commandData opPaset _ t)
          fun t ht => ?_
        have hb : t.frameBytes = memRead s.cfg s.fb 0 s.cfg.nFb := by
          rw [State.frameBytes, ht.cfg, ht.fb]; rfl
        rw [hb]
        exact traces_commandData _ _ t
      generalize ((sendCaset (fullWindow s.cfg).colStart (fullWindow s.cfg).colEnd
        (s.setWin (fullWindow s.cfg))).andThen (sendPaset (fullWindow s.cfg).rowStart (fullWindow s.cfg).rowEnd)).andThen
        (fun t => ramWrite t.frameBytes t) = r at tr ⊢
      cases r with
      | ok u =>
        obtain ⟨hu, hlog⟩ := tr
        refine .done ⟨fun _ => h, fun _ => hr, hu.st, fun _ => ⟨?_, ?_, rfl⟩, by simp [Instr.isRequest], .inr hu.fb,
          hu.cfg, hu.port, hu.refused, ?_, .inl hu.rst, hlog.log, fun _ => ⟨hu.win, hv⟩⟩
        · simp only [complete, State.respond_resps, hu.resps]; rfl
        · simp [complete, hu.rp]
        · exact .inr ⟨rfl, hr, hu.win, hv⟩
      | raise e u =>
        obtain ⟨rfl, hu, hframe⟩ := tr
        exact .bus (busFaulted_of (s' := s.setWin (fullWindow s.cfg)) h rfl rfl rfl rfl rfl rfl rfl
          (fun _ => ⟨hr, hv⟩) rfl hu hframe)
  · rw [runPresent, drawGate_notReady h hr]
    exact .early .initialization (by decide) (by simp [h]) (by simp) (fun _ => ⟨rfl, hr⟩) (takeError_early (by decide))

/-! ### The frame-memory requests -/

/-- A drawing request with a bounds check and one change of the frame memory. -/
theorem drawing_cases {s : State} {i : Instr} {inside : Cfg → Bool} {g : State → List Host.Cell}
    (hreq : i.isRequest = true) (hgate : isGated i = true) (hdraw : isDrawing i = true)
    (hst : ∀ s, stAfter s i = s.st) (hval : ∀ s, valueOf s i = none) (hev : ∀ s, fullEvents s i = [])
    (hrgb : ∀ r g b, i ≠ .rgb565 r g b) :
    ExecCase s (complete ((drawGate s).andThen fun s => (boundsGate (inside s.cfg) s).andThen fun s =>
      .ok (s.setFb (g s)))) i := by
  by_cases h : s.st = .faulted
  · rw [drawGate_faulted h]
    exact .early .configuration (by decide) (by simp [h]) hrgb (by simp) (takeError_early (by decide))
  by_cases hr : s.st = .ready
  · rw [drawGate_ready hr, Res.andThen_ok]
    cases hi : inside s.cfg
    · exact .early .outOfBounds (by decide) (by simp [h]) hrgb (by simp) (takeError_early (by decide))
    · refine .done ⟨fun _ => h, fun _ => hr, ?_, fun _ => ⟨?_, rfl, rfl⟩, by simp [hreq], .inl hdraw, rfl, rfl, rfl,
        .inl rfl, .inl rfl, ?_, fun hi => by subst hi; cases hdraw⟩
      · rw [hst]; rfl
      · rw [hval]; rfl
      · rw [hev]; simp [boundsGate, complete]
  · rw [drawGate_notReady h hr]
    exact .early .initialization (by decide) (by simp [h]) hrgb (fun _ => ⟨hgate, hr⟩) (takeError_early (by decide))

theorem fill_cases (s : State) (c : Word16) (t : State) (h : exec (.fill c) s = .next t) : ExecCase s t (.fill c) := by
  have hc := drawing_cases (s := s) (i := .fill c) (inside := fun _ => true)
    (g := fun s => fillPixels s.cfg c (s.cfg.w.toNat * s.cfg.h.toNat) s.fb) rfl rfl rfl (fun _ => rfl) (fun _ => rfl)
    (fun _ => rfl) (by simp)
  cases h
  exact hc

theorem getpx_cases (s : State) (x y : Word16) (t : State) (h : exec (.getpx x y) s = .next t) :
    ExecCase s t (.getpx x y) := by
  cases h
  by_cases h : s.st = .faulted
  · rw [faultedGate_raises h]
    exact .early .configuration (by decide) (by simp [h]) (by simp) (by simp) (takeError_early (by decide))
  · rw [faultedGate_passes h, Res.andThen_ok]
    cases hi : pixelInside s.cfg x y
    · exact .early .outOfBounds (by decide) (by simp [h]) (by simp) (by simp) (takeError_early (by decide))
    · exact .done ⟨fun _ => h, by simp [isGated], rfl, fun _ => ⟨rfl, rfl, rfl⟩, by simp [Instr.isRequest], .inr rfl, rfl,
        rfl, rfl, .inl rfl, .inl rfl, by simp [fullEvents, boundsGate, completeWith], by simp⟩

/-! ### Every instruction -/

/-- What `exec` can do, said once. -/
theorem exec_cases (i : Instr) (s t : State) (h : exec i s = .next t) : ExecCase s t i := by
  cases i with
  | cmd op =>
    cases h
    exact frames_cases rfl rfl (by simp) (fun _ => rfl) (fun _ => rfl) (by simp) (traces_frame .command [op] s) rfl
  | data payload =>
    cases h
    exact frames_cases rfl rfl (by simp) (fun _ => rfl) (fun _ => rfl) (by simp) (traces_frame .data payload s) rfl
  | reset => cases h; exact reset_cases s
  | init => cases h; exact init_cases s
  | present => cases h; exact present_cases s
  | setpx x y c =>
    cases h
    exact drawing_cases (inside := fun cfg => pixelInside cfg x y)
      (g := fun s => memWrite s.cfg s.fb (pixelAddr s.cfg x.toNat y.toNat) (be16 c)) rfl rfl rfl (fun _ => rfl)
      (fun _ => rfl) (fun _ => rfl) (by simp)
  | getpx x y => exact getpx_cases s x y t h
  | fill c => exact fill_cases s c t h
  | blit x y w h' pix =>
    cases h
    split
    · exact drawing_cases (inside := fun cfg => rectInside cfg x y w h')
        (g := fun s => blitRect s.cfg x.toNat y.toNat w.toNat h'.toNat pix s.fb) rfl rfl rfl (fun _ => rfl)
        (fun _ => rfl) (fun _ => rfl) (by simp)
    · rename_i hl
      exact .refused x y w h' pix rfl (by simpa [blitSourceFits] using hl) rfl
  | rgb565 r g b =>
    cases h
    exact .done ⟨fun hn => absurd rfl (hn r g b), by simp [isGated], rfl, fun _ => ⟨rfl, rfl, rfl⟩,
      by simp [Instr.isRequest], .inr rfl, rfl, rfl, rfl, .inl rfl, .inl rfl, by simp [fullEvents, completeWith],
      by simp⟩
  | swreset =>
    cases h
    exact stage_cases rfl rfl (by simp) (fun _ => rfl) (by simp) (traces_commandThenDelay opSwreset 50 s) rfl
  | slpout =>
    cases h
    exact stage_cases rfl rfl (by simp) (fun _ => rfl) (by simp) (traces_commandThenDelay opSlpout 120 s) rfl
  | dispon =>
    cases h
    exact stage_cases rfl rfl (by simp) (fun _ => rfl) (by simp) (traces_commandThenDelay opDispon 50 s) rfl
  | caset cs ce =>
    cases h
    exact stage_cases (f := sendCaset cs ce) rfl rfl (by simp) (fun _ => rfl) (by simp)
      (traces_commandData opCaset (be16 cs ++ be16 ce) s) rfl
  | paset rs re =>
    cases h
    exact stage_cases (f := sendPaset rs re) rfl rfl (by simp) (fun _ => rfl) (by simp)
      (traces_commandData opPaset (be16 rs ++ be16 re) s) rfl
  | ramwr burst =>
    cases h
    exact stage_cases (f := ramWrite burst) rfl rfl (by simp) (fun _ => rfl) (by simp)
      (traces_commandData opRamwr burst s) rfl
  | madctl b =>
    cases h
    exact stage_cases (f := sendMadctl b) rfl rfl (by simp) (fun _ => rfl) (by simp)
      (traces_commandData s.cfg.madctlOpcode [b] s) rfl

end Sys2Proof.Machine
end

