-- ==== Sys2Proof/Laws/Keeps.lean ====
section
/-! SUPPORT. One induction packaged once: a property that every frame keeps is kept by every instruction (`exec_keeps`).
With it, how the log's three readings (brackets, lines, settle times) go through an append. -/

namespace Sys2Proof.Machine

/-! ### The readings of the log -/

theorem bracketRun_append (st : Bool) (b : Bracket) (l l' : List Event) :
    bracketRun st b (l ++ l') = (bracketRun st b l).bind fun b => bracketRun st b l' := by
  induction l generalizing b with
  | nil => rfl
  | cons e l ih =>
    simp only [List.cons_append, bracketRun]
    cases bracketStep st b e with
    | none => rfl
    | some b' => simpa using ih b'

theorem bracketRun_bytes (st : Bool) (bs : List Byte) : bracketRun st .carrying (bs.map .byte) = some .carrying := by
  induction bs with
  | nil => rfl
  | cons b bs ih => simpa [bracketRun, bracketStep] using ih

theorem rstSettled_append {l l' : List Event} (h : rstSettled l = true) (h' : rstSettled l' = true) :
    rstSettled (l ++ l') = true := by
  induction l with
  | nil => exact h'
  | cons e l ih =>
    cases e with
    | rst lv =>
      cases l with
      | nil => simp [rstSettled] at h
      | cons f l =>
        cases f <;> simp [rstSettled] at h
        simp only [List.cons_append, rstSettled, Bool.and_eq_true, decide_eq_true_eq]
        exact ⟨h.1, by simpa [rstSettled] using ih (by simpa [rstSettled] using h.2)⟩
    | _ => simp only [List.cons_append, rstSettled] at h ⊢; exact ih h

theorem rstSettled_bytes (bs : List Byte) (l) (hl : rstSettled l = true) : rstSettled (bs.map .byte ++ l) = true := by
  induction bs with
  | nil => exact hl
  | cons b bs ih => simpa [rstSettled] using ih

theorem lastCs_append (l l' : List Event) : lastCs (l ++ l') = l'.foldl csAfter (lastCs l) := List.foldl_append

theorem lastDc_append (l l' : List Event) : lastDc (l ++ l') = l'.foldl dcAfter (lastDc l) := List.foldl_append

@[simp] theorem csAfter_bytes (bs : List Byte) (a : Bool) : (bs.map Event.byte).foldl csAfter a = a := by
  induction bs with
  | nil => rfl
  | cons b bs ih => simpa [csAfter] using ih

@[simp] theorem dcAfter_bytes (bs : List Byte) (a : Option Mode) : (bs.map Event.byte).foldl dcAfter a = a := by
  induction bs with
  | nil => rfl
  | cons b bs ih => simpa [dcAfter] using ih

/-- The full event list of an instruction holds a reset-line event only for the reset step of a block with that line
(10_state.md R26). -/
theorem rst_mem_fullEvents {s : State} {i : Instr} {l : Level} (h : Event.rst l ∈ fullEvents s i) :
    s.cfg.hasRst = true ∧ (i = .reset ∨ i = .init) := by
  have hr : Event.rst l ∈ resetEvents s.cfg → s.cfg.hasRst = true := by
    intro h
    cases hc : s.cfg.hasRst
    · simp [resetEvents, hc, commandFrame] at h
    · rfl
  have ht : ∀ rc, Event.rst l ∉ regcmdEvents rc := by
    rintro ⟨op, p⟩
    match p with
    | none => simp [regcmdEvents, commandFrame]
    | some [] => simp [regcmdEvents, commandFrame]
    | some (b :: bs) => simp [regcmdEvents, commandFrame, dataFrame]
  cases i with
  | reset => exact ⟨hr h, .inl rfl⟩
  | init =>
    refine ⟨hr ?_, .inr rfl⟩
    simpa [fullEvents, initEvents, commandFrame, dataFrame, List.mem_flatMap, ht] using h
  | _ => simp [fullEvents, presentEvents, commandFrame, dataFrame] at h

/-! ### A property of states that every frame keeps -/

theorem sat_andThen_keeps {I J : State → Prop} {r : Res} {f : State → Res} (hr : r.Sat I fun _ => J)
    (hf : ∀ t, I t → (f t).Sat I fun _ => J) : (r.andThen f).Sat I fun _ => J :=
  Res.sat_andThen (Res.sat_mono hr (fun t ht => hf t ht) fun _ _ h => h)

section

variable {I J : State → Prop}
  (hframe : ∀ m bs s, I s → (frame m bs s).Sat I fun _ => J)
  (hdelay : ∀ s ms, I s → I (s.delay ms))
include hframe

theorem commandData_keeps (op bs) {s} (h : I s) : ((frame .command [op] s).andThen (frame .data bs)).Sat I fun _ => J :=
  sat_andThen_keeps (hframe _ _ _ h) fun _ ht => hframe _ _ _ ht

theorem replayTable_keeps (table : List RegCmd) {s : State} (h : I s) : (replayTable table s).Sat I fun _ => J := by
  induction table generalizing s with
  | nil => exact h
  | cons rc rest ih =>
    refine sat_andThen_keeps ?_ fun t ht => ih ht
    match rc.payload with
    | none => exact hframe _ _ _ h
    | some [] => exact hframe _ _ _ h
    | some (b :: bs) => exact commandData_keeps hframe _ _ h

include hdelay

theorem commandThenDelay_keeps (op ms) {s} (h : I s) : (commandThenDelay op ms s).Sat I fun _ => J :=
  sat_andThen_keeps (hframe _ _ _ h) fun _ ht => hdelay _ _ ht

/-- If `I` is kept by frames, waits, the reset pulse and the writes of `st` and `win`, then `J`, which follows from `I` and
which a bus fault leaves, holds after every instruction. The three drawing requests are left to the caller. -/
theorem exec_keeps (hIJ : ∀ s, I s → J s)
  (hpulse : ∀ s, I s → s.cfg.hasRst = true → I (pulseRst s))
  (hset : ∀ s v, I s → I (s.setSt v)) (hsetJ : ∀ s v, J s → J (s.setSt v))
  (hwin : ∀ s v, I s → v.valid s.cfg = true → I (s.setWin v))
  (hresp : ∀ s r, J s → J (s.respond r))
  (hfb : ∀ s i t, I s → exec i s = .next t → isDrawing i = true → J t)
  (i : Instr) (s t : State) (h : I s) (he : exec i s = .next t) : J t := by
  have hts : ∀ s e, J s → J (s.takeError e) := by
    intro s e hs
    refine hresp _ _ ?_
    split
    · exact hsetJ _ _ hs
    · exact hs
  have hc : ∀ r : Res, r.Sat I (fun _ => J) → J (complete r) := by
    intro r hr; cases r with
    | ok s => exact hresp _ _ (hIJ _ hr)
    | raise e s => exact hts _ _ hr
  have hcw : ∀ v (r : Res), r.Sat I (fun _ => J) → J (completeWith v r) := by
    intro v r hr; cases r with
    | ok s => exact hresp _ _ (hIJ _ hr)
    | raise e s => exact hts _ _ hr
  have hst : ∀ r : Res, r.Sat I (fun _ => J) → J (stage r) := by
    intro r hr; cases r with
    | ok s => exact hIJ _ hr
    | raise e s => exact hts _ _ hr
  have fg : (faultedGate s).Sat I fun _ => J := by unfold faultedGate; split; exact hIJ _ h; exact h
  have dg : (drawGate s).Sat I fun _ => J := sat_andThen_keeps fg fun t ht => by unfold readyGate; split; exact ht; exact hIJ _ ht
  have bg : ∀ b t, I t → (boundsGate b t).Sat I fun _ => J := by intro b t ht; unfold boundsGate; split; exact ht; exact hIJ _ ht
  have rs : ∀ t, I t → (resetStep t).Sat I fun _ => J := by
    intro t ht; unfold resetStep; split
    · exact hpulse _ ht (by assumption)
    · exact commandThenDelay_keeps hframe hdelay _ _ ht
  cases i with
  | setpx => exact hfb _ _ _ h he rfl
  | fill => exact hfb _ _ _ h he rfl
  | blit => exact hfb _ _ _ h he rfl
  | cmd => cases he; exact hc _ (sat_andThen_keeps fg fun t ht => hframe _ _ _ ht)
  | data => cases he; exact hc _ (sat_andThen_keeps fg fun t ht => hframe _ _ _ ht)
  | reset =>
    cases he
    exact hc _ (sat_andThen_keeps fg fun t ht => sat_andThen_keeps (rs _ (hset _ _ ht)) fun u hu => hset _ _ hu)
  | init =>
    cases he
    refine hc _ (sat_andThen_keeps fg fun t ht => sat_andThen_keeps (rs _ (hset _ _ ht)) fun u hu =>
      sat_andThen_keeps ?_ fun v hv => sat_andThen_keeps (commandThenDelay_keeps hframe hdelay _ _ hv) fun w hw =>
      sat_andThen_keeps (commandThenDelay_keeps hframe hdelay _ _ hw) fun w' hw' => hset _ _ hw')
    exact sat_andThen_keeps (replayTable_keeps hframe _ (hset _ _ hu)) fun v hv => commandData_keeps hframe _ _ hv
  | present =>
    cases he
    refine hc _ (sat_andThen_keeps dg fun t ht => sat_andThen_keeps ?_ fun u hu => commandData_keeps hframe _ _ hu)
    unfold setWindow boundsGate
    split
    · rw [Res.andThen_ok]
      exact sat_andThen_keeps (commandData_keeps hframe _ _ (hwin _ _ ht (by assumption))) fun u hu => commandData_keeps hframe _ _ hu
    · exact hIJ _ ht
  | getpx => cases he; exact hcw _ _ (sat_andThen_keeps fg fun t ht => bg _ _ ht)
  | rgb565 => cases he; exact hcw _ _ h
  | swreset => cases he; exact hst _ (sat_andThen_keeps fg fun t ht => commandThenDelay_keeps hframe hdelay _ _ ht)
  | slpout => cases he; exact hst _ (sat_andThen_keeps fg fun t ht => commandThenDelay_keeps hframe hdelay _ _ ht)
  | dispon => cases he; exact hst _ (sat_andThen_keeps fg fun t ht => commandThenDelay_keeps hframe hdelay _ _ ht)
  | caset => cases he; exact hst _ (sat_andThen_keeps fg fun t ht => commandData_keeps hframe _ _ ht)
  | paset => cases he; exact hst _ (sat_andThen_keeps fg fun t ht => commandData_keeps hframe _ _ ht)
  | ramwr => cases he; exact hst _ (sat_andThen_keeps fg fun t ht => commandData_keeps hframe _ _ ht)
  | madctl => cases he; exact hst _ (sat_andThen_keeps fg fun t ht => commandData_keeps hframe _ _ ht)
end

/-- What a drawing request leaves alone (43_frame_memory_ops.md R174). -/
theorem drawing_same {s t : State} {i : Instr} (h : exec i s = .next t) (hd : isDrawing i = true) :
   t.log = s.log ∧ t.cs = s.cs ∧ t.dc = s.dc ∧ t.rst = s.rst ∧ t.win = s.win ∧ t.st = s.st ∧ t.cfg = s.cfg := by
  by_cases h1 : s.st = .faulted
  · cases i <;> simp [isDrawing] at hd
    · cases h; rw [drawGate_faulted h1]; exact ⟨rfl, rfl, rfl, rfl, rfl, rfl, rfl⟩
    · cases h; rw [drawGate_faulted h1]; exact ⟨rfl, rfl, rfl, rfl, rfl, rfl, rfl⟩
    · cases h; rw [drawGate_faulted h1]; split <;> exact ⟨rfl, rfl, rfl, rfl, rfl, rfl, rfl⟩
  · by_cases h2 : s.st = .ready
    · cases i <;> simp [isDrawing] at hd
      · cases h; rw [drawGate_ready h2, Res.andThen_ok]; unfold boundsGate; split <;> exact ⟨rfl, rfl, rfl, rfl, rfl, rfl, rfl⟩
      · cases h; rw [drawGate_ready h2]; exact ⟨rfl, rfl, rfl, rfl, rfl, rfl, rfl⟩
      · cases h; rw [drawGate_ready h2, Res.andThen_ok]; unfold boundsGate; split
        · split <;> exact ⟨rfl, rfl, rfl, rfl, rfl, rfl, rfl⟩
        · exact ⟨rfl, rfl, rfl, rfl, rfl, rfl, rfl⟩
    · cases i <;> simp [isDrawing] at hd
      · cases h; rw [drawGate_notReady h1 h2]; exact ⟨rfl, rfl, rfl, rfl, rfl, rfl, rfl⟩
      · cases h; rw [drawGate_notReady h1 h2]; exact ⟨rfl, rfl, rfl, rfl, rfl, rfl, rfl⟩
      · cases h; rw [drawGate_notReady h1 h2]; split <;> exact ⟨rfl, rfl, rfl, rfl, rfl, rfl, rfl⟩

end Sys2Proof.Machine
end

