-- ==== Sys2Proof/Laws/Faults.lean ====
section
/-! SUPPORT. A stretch of frames whose draws are given runs to one known end (`Breaks`): to its last event, or to the first
frame whose draw fails it. One lemma per operation of the init sequencer and the window decoder; 40_framer.md rule R104,
60_exceptions.md rules R204, R207. -/

namespace Sys2Proof.Machine

/-- The events of a frame of any mode (40_framer.md R100). -/
def frameEvents (m : Mode) (bs : List Byte) : List Event := [.cs true, .dc m] ++ bs.map .byte ++ [.cs false]

/-- The state in which a stretch ends that sent `before` and then a frame that failed after `k` bytes. -/
def broke (s : State) (before : List Event) (m : Mode) (bs : List Byte) (k : Nat) (csf : Bool) (seq : SeqPos) : State :=
  { s.dropDraws (before.count (.cs true) + 1) with
    cs := csf
    dc := some m
    log := s.log ++ before ++ failedFrame m bs k csf
    seq := seq }

/-- A stretch from `s` whose full event list is `es`: whole brackets only; with no bus fault it logs all of `es`; and if no
frame of `before` fails and the next one's draw does, it ends there. `st` is left open, since a request may write it on its
way. -/
structure Breaks (s : State) (es : List Event) (r : Res) : Prop where
  closed : bracketRun true .closed es = some .closed
  clean : s.noBusFault (es.count (.cs true)) →
    ∃ c d q v, r = .ok ((ran s (es.count (.cs true)) es c d q).setSt v)
  breaks : ∀ before m bs k csf, before ++ frameEvents m bs <+: es → s.noBusFault (before.count (.cs true)) →
    s.drawAt (before.count (.cs true)) = ⟨some k, csf⟩ → k ≤ bs.length →
    ∃ q v, r = .raise .busTransfer ((broke s before m bs k csf q).setSt v)

/-! ### Where a frame can stand -/

theorem bracketRun_frameEvents (m : Mode) (bs : List Byte) (b : Bracket) :
    bracketRun true b (frameEvents m bs) = if b = .closed then some .closed else none := by
  cases b
  · simp only [frameEvents, bracketRun_append, bracketRun, bracketStep, Option.bind_some, bracketRun_bytes]; rfl
  · rfl
  · rfl

/-- Inside a frame, after its first event and before its last, the bracket is not closed. -/
theorem bracketRun_inside {m : Mode} {bs : List Byte} {b : Bracket} {p : List Event} (hp : p <+: frameEvents m bs)
    (hne : p ≠ []) (h : bracketRun true b p = some .closed) : p = frameEvents m bs := by
  obtain ⟨rest, hrest⟩ := hp
  have hall := bracketRun_frameEvents m bs b
  rw [← hrest, bracketRun_append, h, Option.bind_some] at hall
  match rest with
  | [] => simpa using hrest
  | e :: rest' =>
    exfalso
    -- the last event of the frame is `CS(false)`, which a closed bracket does not take
    have hlast : ∀ l : List Event, bracketRun true .closed (l ++ [.cs false]) = some .closed → .cs true ∈ l := by
      intro l hl
      by_contra hn
      have key : ∀ l : List Event, .cs true ∉ l →
          bracketRun true .closed l = some .closed ∨ bracketRun true .closed l = none := by
        intro l
        induction l with
        | nil => exact fun _ => .inl rfl
        | cons e l ih =>
          intro hl
          simp only [List.mem_cons, not_or] at hl
          rcases e with (_ | _) | _ | _ | _ | _
          · exact .inr rfl
          · exact absurd rfl hl.1
          · exact .inr rfl
          · exact .inr rfl
          · exact ih hl.2
          · exact ih hl.2
      rcases key l hn with hk | hk <;> rw [bracketRun_append, hk] at hl <;> cases hl
    obtain ⟨l, hl⟩ : ∃ l, e :: rest' = l ++ [.cs false] := by
      have h1 := congrArg List.getLast? hrest
      simp only [frameEvents, List.getLast?_append, List.getLast?_singleton, Option.some_or] at h1
      have h2 : (e :: rest').getLast? = some (.cs false) := by
        cases hg : (e :: rest').getLast? with
        | none => simp at hg
        | some x => rw [hg] at h1; simpa using h1
      exact (List.getLast?_eq_some_iff).mp h2
    have hb : b = .closed := by
      by_contra hb
      rw [if_neg hb] at hall
      -- a frame from an open bracket fails at its first event, which `p` holds
      match p, hne with
      | e' :: p', _ =>
        have he : e' = .cs true := by simpa [frameEvents] using congrArg List.head? hrest
        subst he
        cases b
        · exact hb rfl
        · cases h
        · cases h
    rw [hb, if_pos rfl, hl] at hall
    have hmem := hlast l hall
    match p, hne with
    | e' :: p', _ =>
      have he : p' ++ (l ++ [.cs false]) = .dc m :: (bs.map .byte ++ [.cs false]) := by
        rw [← hl]; simpa [frameEvents] using congrArg List.tail hrest
      have hin : Event.cs true ∈ Event.dc m :: (bs.map Event.byte ++ [.cs false]) := by
        rw [← he]; simp [hmem]
      simp at hin

/-- A frame in two stretches stands whole in the first or whole in the second. -/
theorem frame_in_append {es es' before : List Event} {m : Mode} {bs : List Byte}
    (hes : bracketRun true .closed es = some .closed) (h : before ++ frameEvents m bs <+: es ++ es') :
    before ++ frameEvents m bs <+: es ∨ ∃ b, before = es ++ b ∧ b ++ frameEvents m bs <+: es' := by
  rcases Nat.lt_or_ge before.length es.length with hlt | hge
  · left
    obtain ⟨p, rfl⟩ : before <+: es :=
      List.prefix_of_prefix_length_le ((List.prefix_append _ _).trans h) (List.prefix_append _ _) (by omega)
    rw [List.append_assoc, List.prefix_append_right_inj] at h
    rw [List.prefix_append_right_inj]
    rcases Nat.lt_or_ge p.length (frameEvents m bs).length with hlt' | hge'
    · have hp : p <+: frameEvents m bs :=
        List.prefix_of_prefix_length_le (List.prefix_append _ _) h (by omega)
      rw [bracketRun_append] at hes
      cases hb : bracketRun true .closed before with
      | none => rw [hb] at hes; cases hes
      | some b =>
        rw [hb] at hes
        have hne : p ≠ [] := by rintro rfl; simp at hlt
        rw [bracketRun_inside hp hne hes]
    · exact List.prefix_of_prefix_length_le h (List.prefix_append _ _) hge'
  · right
    obtain ⟨b, rfl⟩ : es <+: before :=
      List.prefix_of_prefix_length_le (List.prefix_append _ _) ((List.prefix_append _ _).trans h) (by omega)
    refine ⟨b, rfl, ?_⟩
    rwa [List.append_assoc, List.prefix_append_right_inj] at h

/-! ### Stretches -/

theorem ran_setSt_ran (s : State) (n n' : Nat) (es es' : List Event) (c c' : Bool) (d d' : Option Mode) (q q' : SeqPos)
    (v v' : CtrlState) : (ran ((ran s n es c d q).setSt v) n' es' c' d' q').setSt v' =
      (ran s (n + n') (es ++ es') c' d' q').setSt v' :=
  congrArg (fun t => t.setSt v') (ran_ran s n n' es es' c c' d d' q q')

theorem broke_ran (s : State) (es b : List Event) (c : Bool) (d : Option Mode) (q q' : SeqPos) (v v' : CtrlState)
    (m : Mode) (bs : List Byte) (k : Nat) (csf : Bool) :
    (broke ((ran s (es.count (.cs true)) es c d q).setSt v) b m bs k csf q').setSt v' =
      (broke s (es ++ b) m bs k csf q').setSt v' := by
  have h := State.dropDraws_dropDraws s (es.count (.cs true)) (b.count (.cs true) + 1)
  simp only [State.dropDraws, State.mk.injEq, true_and] at h
  simp [broke, ran, State.setSt, State.dropDraws, List.count_append, h.1]
  omega

theorem Breaks.andThen {s : State} {es es' : List Event} {r : Res} {f : State → Res} (h : Breaks s es r)
    (h' : ∀ c d q v, Breaks ((ran s (es.count (.cs true)) es c d q).setSt v) es'
      (f ((ran s (es.count (.cs true)) es c d q).setSt v))) : Breaks s (es ++ es') (r.andThen f) where
  closed := by rw [bracketRun_append, h.closed]; exact (h' false none .idle .ready).closed
  clean hn := by
    rw [List.count_append] at hn
    obtain ⟨c, d, q, v, rfl⟩ := h.clean (State.noBusFault_mono hn (by omega))
    obtain ⟨c', d', q', v', hf⟩ := (h' c d q v).clean fun i hi => by
      rw [State.setSt_drawAt, ran_drawAt]; exact hn _ (by omega)
    exact ⟨c', d', q', v', by rw [Res.andThen_ok, hf, ran_setSt_ran, List.count_append]⟩
  breaks before m bs k csf hp hn hd hk := by
    rcases frame_in_append h.closed hp with hp' | ⟨b, rfl, hb⟩
    · obtain ⟨q, v, rfl⟩ := h.breaks before m bs k csf hp' hn hd hk
      exact ⟨q, v, rfl⟩
    · rw [List.count_append] at hn hd
      obtain ⟨c, d, q, v, rfl⟩ := h.clean (State.noBusFault_mono hn (by omega))
      obtain ⟨q', v', hf⟩ := (h' c d q v).breaks b m bs k csf hb
        (fun i hi => by rw [State.setSt_drawAt, ran_drawAt]; exact hn _ (by omega))
        (by rw [State.setSt_drawAt, ran_drawAt]; exact hd) hk
      exact ⟨q', v', by rw [Res.andThen_ok, hf, broke_ran]⟩

/-- A request that writes `st` first runs the same stretch. -/
theorem Breaks.of_setSt {s : State} {es : List Event} {r : Res} {v : CtrlState} (h : Breaks (s.setSt v) es r) :
    Breaks s es r := ⟨h.closed, h.clean, h.breaks⟩

/-- A stretch of no event, such as a write of `st`. -/
theorem breaks_setSt (s : State) (v : CtrlState) : Breaks s [] (.ok (s.setSt v)) where
  closed := rfl
  clean _ := ⟨s.cs, s.dc, s.seq, v, by simp [ran]⟩
  breaks before m bs k csf hp := absurd (List.prefix_nil.mp hp) (by simp [frameEvents])

theorem breaks_frame (m : Mode) (bs : List Byte) (s : State) : Breaks s (frameEvents m bs) (frame m bs s) where
  closed := by rw [bracketRun_frameEvents]; rfl
  clean hn := by
    have hc : (frameEvents m bs).count (.cs true) = 1 := by simp [frameEvents, count_bytes]
    rw [hc] at hn ⊢
    exact ⟨_, _, _, s.st, frame_ran m bs hn⟩
  breaks before m' bs' k csf hp hn hd hk := by
    -- the list holds one `CS(true)`, at its head
    have hb : before = [] := by
      match before with
      | [] => rfl
      | e :: b =>
        exfalso
        have hp2 : b ++ frameEvents m' bs' <+: .dc m :: (bs.map .byte ++ [.cs false]) := by
          have := hp
          simp only [frameEvents, List.cons_append, List.nil_append, List.cons_prefix_cons] at this
          simpa [frameEvents] using this.2
        have hm : Event.cs true ∈ Event.dc m :: (bs.map Event.byte ++ [.cs false]) := hp2.subset (by simp [frameEvents])
        simp at hm
    subst hb
    have hf : frameEvents m' bs' = frameEvents m bs := by
      refine bracketRun_inside (b := .closed) (by simpa using hp) (by simp [frameEvents]) ?_
      rw [bracketRun_frameEvents]; rfl
    have hm : m' = m ∧ bs' = bs := by
      simp only [frameEvents, List.cons_append, List.nil_append, List.cons.injEq, Event.dc.injEq, true_and,
        List.append_cancel_right_eq] at hf
      exact ⟨hf.1, (List.map_inj_right fun _ _ h => Event.byte.inj h).mp hf.2⟩
    obtain ⟨rfl, rfl⟩ := hm
    have hd0 : s.drawAt 0 = ⟨some k, csf⟩ := hd
    refine ⟨.busy s.seq.nextFrame (bs'.take k).length, s.st, ?_⟩
    rw [frame_fails m' bs' s k (faultAt_some_of_bf (by rw [hd0]) hk)]
    simp [broke, afterFault, hd0, State.setSt]

theorem breaks_delay (s : State) (ms : Nat) : Breaks s [.delay ms] (.ok (s.delay ms)) where
  closed := rfl
  clean _ := ⟨s.cs, s.dc, s.seq, s.st, by simp [ran, State.setSt, State.delay, State.emit]⟩
  breaks before m bs k csf hp := absurd (hp.subset (show Event.cs true ∈ _ by simp [frameEvents])) (by simp)

theorem breaks_commandThenDelay (op : Byte) (ms : Nat) (s : State) :
    Breaks s (commandFrame op ++ [.delay ms]) (commandThenDelay op ms s) :=
  (breaks_frame .command [op] s).andThen fun _ _ _ _ => breaks_delay _ ms

theorem breaks_commandData (op : Byte) (bs : List Byte) (s : State) :
    Breaks s (commandFrame op ++ dataFrame bs) ((frame .command [op] s).andThen (frame .data bs)) :=
  (breaks_frame .command [op] s).andThen fun _ _ _ _ => breaks_frame .data bs _

theorem breaks_regcmd (rc : RegCmd) (s : State) : Breaks s (regcmdEvents rc) (regcmd rc.op rc.payload s) := by
  obtain ⟨op, p⟩ := rc
  match p with
  | none => simpa [regcmd, regcmdEvents, commandFrame, frameEvents] using breaks_frame .command [op] s
  | some [] => simpa [regcmd, regcmdEvents, commandFrame, frameEvents] using breaks_frame .command [op] s
  | some (b :: bs) => simpa [regcmd, regcmdEvents] using breaks_commandData op (b :: bs) s

theorem breaks_replayTable (table : List RegCmd) (s : State) :
    Breaks s (table.flatMap regcmdEvents) (replayTable table s) := by
  induction table generalizing s with
  | nil => exact breaks_setSt s s.st
  | cons rc rest ih =>
    rw [List.flatMap_cons]
    exact (breaks_regcmd rc s).andThen fun _ _ _ _ => ih _

theorem breaks_configurePanel (s : State) :
    Breaks s (s.cfg.initTable.flatMap regcmdEvents ++ (commandFrame s.cfg.madctlOpcode ++ dataFrame [s.cfg.orient]))
      (configurePanel s) :=
  (breaks_replayTable s.cfg.initTable s).andThen fun _ _ _ _ => breaks_commandData s.cfg.madctlOpcode [s.cfg.orient] _

/-- The reset step, from the state whose reset line it has pulsed, if there is one. -/
theorem breaks_resetStep (s : State) :
    Breaks (if s.cfg.hasRst then { s with rst := some .high } else s) (resetEvents s.cfg) (resetStep s) := by
  cases hr : s.cfg.hasRst
  · simpa [resetStep, resetEvents, hr, sendSwreset, opSwreset] using breaks_commandThenDelay opSwreset 50 s
  · simp only [resetStep, resetEvents, hr, if_true]
    refine ⟨rfl, fun _ => ⟨s.cs, s.dc, s.seq, s.st, ?_⟩, fun before m bs k csf hp => ?_⟩
    · simp [ran, pulseRst, State.driveRst, State.delay, State.emit, State.setSt]
    · exact absurd (hp.subset (show Event.cs true ∈ _ by simp [frameEvents])) (by simp)

/-- Taking the bus fault of a broken stretch (60_exceptions.md R206). -/
theorem takeError_broke (s : State) (before : List Event) (m : Mode) (bs : List Byte) (k : Nat) (csf : Bool)
    (q : SeqPos) (v : CtrlState) :
    ((broke s before m bs k csf q).setSt v).takeError .busTransfer =
      State.answered { s.dropDraws (before.count (.cs true) + 1) with
        st := .uninitialized
        cs := csf
        dc := some m
        log := s.log ++ before ++ failedFrame m bs k csf } [0x40] := takeError_bus _

end Sys2Proof.Machine
end

