-- ==== Sys2Proof/Laws/Memory.lean ====
section
/-! SUPPORT. The laws of the frame memory: a read after a write, the canonical form kept by every operation, and equal
reads of canonical memories being equal memories (20_memory.md rules R50, R61). -/

namespace Sys2Proof.Machine

variable (c : Cfg)

/-! ### Reading one byte -/

@[simp] theorem readCell_nil (a : Nat) : readCell c [] a = unlisted c a := rfl

theorem readCell_cons (e : Host.Cell) (m : List Host.Cell) (a : Nat) :
    readCell c (e :: m) a = if e.1 = a then e.2 else readCell c m a := rfl

theorem rising_cons {e : Host.Cell} {m : List Host.Cell} (h : rising (e :: m) = true) : rising m = true := by
  cases m with
  | nil => rfl
  | cons f m => simp only [rising, Bool.and_eq_true] at h; exact h.2

theorem rising_head_lt {e : Host.Cell} {m : List Host.Cell} (h : rising (e :: m) = true) :
    ∀ f ∈ m, e.1 < f.1 := by
  induction m generalizing e with
  | nil => simp
  | cons g m ih =>
    simp only [rising, Bool.and_eq_true, decide_eq_true_eq] at h
    intro f hf
    rcases List.mem_cons.mp hf with rfl | hf
    · exact h.1
    · exact Nat.lt_trans h.1 (ih h.2 f hf)

theorem rising_cons_iff (e : Host.Cell) (m : List Host.Cell) :
    rising (e :: m) = true ↔ (∀ f ∈ m, e.1 < f.1) ∧ rising m = true := by
  constructor
  · exact fun h => ⟨rising_head_lt h, rising_cons h⟩
  · rintro ⟨h₁, h₂⟩
    cases m with
    | nil => rfl
    | cons f m => simp [rising, h₁ f (by simp), h₂]

theorem readCell_of_not_listed {m : List Host.Cell} {a : Nat} (h : ∀ f ∈ m, f.1 ≠ a) :
    readCell c m a = unlisted c a := by
  induction m with
  | nil => rfl
  | cons e m ih =>
    rw [readCell_cons, if_neg (h e (by simp))]
    exact ih fun f hf => h f (by simp [hf])

/-- A read after a write of one byte, in a memory whose addresses rise. -/
theorem readCell_writeCell {m : List Host.Cell} (h : rising m = true) (a a' : Nat) (b : Byte) :
    readCell c (writeCell c m a b) a' = if a' = a then b else readCell c m a' := by
  induction m with
  | nil =>
    unfold writeCell
    by_cases ha : a' = a
    · subst ha; by_cases hb : b = unlisted c a' <;> simp [hb, readCell_cons]
    · have ha' : a ≠ a' := fun h => ha h.symm
      by_cases hb : b = unlisted c a <;> simp [hb, ha, ha', readCell_cons]
  | cons e m ih =>
    have hlt := rising_head_lt h
    have hm : ∀ x, x ≤ e.1 → readCell c m x = unlisted c x := fun x hx =>
      readCell_of_not_listed c fun f hf => by have := hlt f hf; omega
    unfold writeCell
    split
    · rename_i h1
      rw [readCell_cons, readCell_cons, ih (rising_cons h)]
      by_cases ha : a' = a
      · subst ha; simp [Nat.ne_of_lt h1]
      · simp [ha]
    · rename_i h1
      split
      · rename_i h2
        subst h2
        by_cases ha : a' = e.1
        · subst ha
          by_cases hb : b = unlisted c e.1
          · simp [hb, hm]
          · simp [hb, readCell_cons]
        · have ha' : e.1 ≠ a' := fun h => ha h.symm
          by_cases hb : b = unlisted c e.1
          · simp [hb, ha, ha', readCell_cons]
          · simp [hb, ha, ha', readCell_cons]
      · rename_i h2
        have hlt' : a < e.1 := by omega
        by_cases ha : a' = a
        · subst ha
          by_cases hb : b = unlisted c a'
          · simp [hb, readCell_cons, h2, hm _ (Nat.le_of_lt hlt')]
          · simp [hb, readCell_cons]
        · have ha' : a ≠ a' := fun h => ha h.symm
          by_cases hb : b = unlisted c a
          · simp [hb, ha]
          · simp [hb, ha, readCell_cons, ha']

/-! ### The canonical form -/

theorem mem_writeCell {m : List Host.Cell} {a : Nat} {b : Byte} {f : Host.Cell} (h : f ∈ writeCell c m a b) :
    f ∈ m ∨ (f = (a, b) ∧ b ≠ unlisted c a) := by
  induction m with
  | nil =>
    unfold writeCell at h
    split at h
    · cases h
    · simp at h; exact .inr ⟨h, by assumption⟩
  | cons e m ih =>
    unfold writeCell at h
    split at h
    · rcases List.mem_cons.mp h with rfl | h
      · simp
      · rcases ih h with h | h
        · simp [h]
        · exact .inr h
    · split at h
      · split at h
        · simp [h]
        · rcases List.mem_cons.mp h with rfl | h
          · exact .inr ⟨rfl, by assumption⟩
          · simp [h]
      · split at h
        · exact .inl h
        · rcases List.mem_cons.mp h with rfl | h
          · exact .inr ⟨rfl, by assumption⟩
          · exact .inl h

theorem rising_writeCell {m : List Host.Cell} (h : rising m = true) (a : Nat) (b : Byte) :
    rising (writeCell c m a b) = true := by
  induction m with
  | nil => unfold writeCell; split <;> rfl
  | cons e m ih =>
    have hlt := rising_head_lt h
    unfold writeCell
    split
    · rename_i h1
      rw [rising_cons_iff]
      refine ⟨fun f hf => ?_, ih (rising_cons h)⟩
      rcases mem_writeCell c hf with hf | ⟨rfl, -⟩
      · exact hlt f hf
      · exact h1
    · split
      · rename_i h2
        split
        · exact rising_cons h
        · rw [rising_cons_iff]
          exact ⟨fun f hf => by have := hlt f hf; simp only at *; omega, rising_cons h⟩
      · split
        · exact h
        · rw [rising_cons_iff]
          refine ⟨fun f hf => ?_, h⟩
          rcases List.mem_cons.mp hf with rfl | hf
          · simp only; omega
          · have := hlt f hf; simp only; omega

theorem Memory.wf_iff (m : List Host.Cell) :
    Memory.wf c m = true ↔ rising m = true ∧ ∀ f ∈ m, f.2 ≠ unlisted c f.1 := by
  simp [Memory.wf]

theorem Memory.inRange_iff (m : List Host.Cell) : Memory.inRange c m = true ↔ ∀ f ∈ m, f.1 < c.nFb := by
  simp [Memory.inRange]

theorem Memory.wf_nil : Memory.wf c [] = true := rfl

theorem Memory.inRange_nil : Memory.inRange c [] = true := rfl

theorem Memory.rising_of_wf {m : List Host.Cell} (h : Memory.wf c m = true) : rising m = true :=
  ((Memory.wf_iff c m).mp h).1

theorem Memory.wf_writeCell {m : List Host.Cell} (h : Memory.wf c m = true) (a : Nat) (b : Byte) :
    Memory.wf c (writeCell c m a b) = true := by
  rw [Memory.wf_iff] at h ⊢
  refine ⟨rising_writeCell c h.1 a b, fun f hf => ?_⟩
  rcases mem_writeCell c hf with hf | ⟨rfl, hb⟩
  · exact h.2 f hf
  · exact hb

theorem Memory.inRange_writeCell {m : List Host.Cell} (h : Memory.inRange c m = true) {a : Nat} (ha : a < c.nFb)
    (b : Byte) : Memory.inRange c (writeCell c m a b) = true := by
  rw [Memory.inRange_iff] at h ⊢
  intro f hf
  rcases mem_writeCell c hf with hf | ⟨rfl, -⟩
  · exact h f hf
  · exact ha

/-- Two canonical memories that read the same everywhere are the same list of cells. -/
theorem Memory.ext_of_read {m m' : List Host.Cell} (h : Memory.wf c m = true) (h' : Memory.wf c m' = true)
    (hr : ∀ a, readCell c m a = readCell c m' a) : m = m' := by
  rw [Memory.wf_iff] at h h'
  induction m generalizing m' with
  | nil =>
    cases m' with
    | nil => rfl
    | cons e m' =>
      have := hr e.1
      rw [readCell_cons, if_pos rfl] at this
      exact absurd this.symm (h'.2 e (by simp))
  | cons e m ih =>
    cases m' with
    | nil =>
      have := hr e.1
      rw [readCell_cons, if_pos rfl] at this
      exact absurd this (h.2 e (by simp))
    | cons e' m' =>
      have hl := rising_head_lt h.1
      have hl' := rising_head_lt h'.1
      have key : e = e' := by
        rcases Nat.lt_trichotomy e.1 e'.1 with hlt | heq | hgt
        · have := hr e.1
          rw [readCell_cons, if_pos rfl, readCell_of_not_listed c (m := e' :: m')] at this
          · exact absurd this (h.2 e (by simp))
          · intro f hf
            rcases List.mem_cons.mp hf with rfl | hf
            · omega
            · have := hl' f hf; omega
        · have := hr e.1
          rw [readCell_cons, readCell_cons, if_pos rfl, if_pos heq.symm] at this
          exact Prod.ext heq this
        · have := hr e'.1
          rw [readCell_cons c e', if_pos rfl, readCell_of_not_listed c (m := e :: m)] at this
          · exact absurd this.symm (h'.2 e' (by simp))
          · intro f hf
            rcases List.mem_cons.mp hf with rfl | hf
            · omega
            · have := hl f hf; omega
      subst key
      congr 1
      refine ih ⟨rising_cons h.1, fun f hf => h.2 f (by simp [hf])⟩
        ⟨rising_cons h'.1, fun f hf => h'.2 f (by simp [hf])⟩ fun a => ?_
      have := hr a
      rw [readCell_cons, readCell_cons] at this
      split at this
      · rename_i ha
        rw [readCell_of_not_listed c (fun f hf => by have := hl f hf; omega),
          readCell_of_not_listed c (fun f hf => by have := hl' f hf; omega)]
      · exact this

/-! ### Runs of bytes -/

theorem Memory.wf_memWrite (bs : List Byte) {m : List Host.Cell} (h : Memory.wf c m = true) (a : Nat) :
    Memory.wf c (memWrite c m a bs) = true := by
  induction bs generalizing m a with
  | nil => exact h
  | cons b bs ih => exact ih (Memory.wf_writeCell c h a b) (a + 1)

theorem rising_memWrite (bs : List Byte) {m : List Host.Cell} (h : rising m = true) (a : Nat) :
    rising (memWrite c m a bs) = true := by
  induction bs generalizing m a with
  | nil => exact h
  | cons b bs ih => exact ih (rising_writeCell c h a b) (a + 1)

theorem Memory.inRange_memWrite (bs : List Byte) {m : List Host.Cell} (h : Memory.inRange c m = true) (a : Nat)
    (ha : a + bs.length ≤ c.nFb) : Memory.inRange c (memWrite c m a bs) = true := by
  induction bs generalizing m a with
  | nil => exact h
  | cons b bs ih =>
    simp only [List.length_cons] at ha
    exact ih (Memory.inRange_writeCell c h (by omega) b) (a + 1) (by omega)

/-- A read after a run of bytes was written: the written byte inside the run, the byte from before outside it. -/
theorem readCell_memWrite (bs : List Byte) {m : List Host.Cell} (h : rising m = true) (a a' : Nat) :
    readCell c (memWrite c m a bs) a' =
      if a ≤ a' ∧ a' < a + bs.length then bs.getD (a' - a) 0 else readCell c m a' := by
  induction bs generalizing m a with
  | nil => simp only [memWrite, List.length_nil, Nat.add_zero]; rw [if_neg (by omega)]
  | cons b bs ih =>
    rw [memWrite, ih (rising_writeCell c h a b), readCell_writeCell c h]
    simp only [List.length_cons]
    by_cases h1 : a' = a
    · subst h1
      rw [if_neg (by omega), if_pos rfl, if_pos (by omega)]
      simp
    · by_cases h2 : a + 1 ≤ a' ∧ a' < a + 1 + bs.length
      · rw [if_pos h2, if_pos (by omega)]
        have : a' - a = (a' - (a + 1)) + 1 := by omega
        rw [this, List.getD_cons_succ]
      · rw [if_neg h2, if_neg h1, if_neg (by omega)]

@[simp] theorem be16_length (v : Word16) : (be16 v).length = 2 := rfl

/-! ### FILL -/

theorem fillPixels_succ (v : Word16) (n : Nat) (m : List Host.Cell) :
    fillPixels c v (n + 1) m = memWrite c (fillPixels c v n m) (2 * n) (be16 v) := by
  simp [fillPixels, List.range_succ]

theorem Memory.wf_fillPixels (v : Word16) (n : Nat) {m : List Host.Cell} (h : Memory.wf c m = true) :
    Memory.wf c (fillPixels c v n m) = true := by
  induction n with
  | zero => exact h
  | succ n ih => rw [fillPixels_succ]; exact Memory.wf_memWrite c _ ih _

theorem rising_fillPixels (v : Word16) (n : Nat) {m : List Host.Cell} (h : rising m = true) :
    rising (fillPixels c v n m) = true := by
  induction n with
  | zero => exact h
  | succ n ih => rw [fillPixels_succ]; exact rising_memWrite c _ ih _

theorem Memory.inRange_fillPixels (v : Word16) (n : Nat) {m : List Host.Cell} (h : Memory.inRange c m = true)
    (hn : 2 * n ≤ c.nFb) : Memory.inRange c (fillPixels c v n m) = true := by
  induction n with
  | zero => exact h
  | succ n ih =>
    rw [fillPixels_succ]
    exact Memory.inRange_memWrite c _ (ih (by omega)) _ (by simp; omega)

/-- After FILL of `n` pixels, every byte below `2n` is the colour's high or low byte and every other byte is as before. -/
theorem readCell_fillPixels (v : Word16) (n : Nat) {m : List Host.Cell} (h : rising m = true) (a : Nat) :
    readCell c (fillPixels c v n m) a = if a < 2 * n then (be16 v).getD (a % 2) 0 else readCell c m a := by
  induction n with
  | zero => simp [fillPixels]
  | succ n ih =>
    rw [fillPixels_succ, readCell_memWrite c _ (rising_fillPixels c v n h), ih, be16_length]
    by_cases h1 : 2 * n ≤ a ∧ a < 2 * n + 2
    · rw [if_pos h1, if_pos (by omega)]
      congr 1
      omega
    · rw [if_neg h1]
      by_cases h2 : a < 2 * n
      · rw [if_pos h2, if_pos (by omega)]
      · rw [if_neg h2, if_neg (by omega)]

/-! ### BLIT -/

theorem pixelAddr_add (x i y : Nat) : pixelAddr c (x + i) y = pixelAddr c x y + 2 * i := by
  unfold pixelAddr; omega

theorem blitRow_succ (x y w j k : Nat) (pix : List Byte) (m : List Host.Cell) :
    (List.range (w + 1)).foldl (fun m i => memWrite c m (pixelAddr c (x + i) (y + j))
      [pix.getD (2 * (j * k + i)) 0, pix.getD (2 * (j * k + i) + 1) 0]) m =
    memWrite c ((List.range w).foldl (fun m i => memWrite c m (pixelAddr c (x + i) (y + j))
      [pix.getD (2 * (j * k + i)) 0, pix.getD (2 * (j * k + i) + 1) 0]) m) (pixelAddr c (x + w) (y + j))
      [pix.getD (2 * (j * k + w)) 0, pix.getD (2 * (j * k + w) + 1) 0] := by
  simp [List.range_succ]

/-- The first `n` pixels of row `j`, in a rectangle of width `k`. -/
theorem blitRow_run (x y j k n : Nat) (pix : List Byte) {m : List Host.Cell} (h : rising m = true) :
    let m' := (List.range n).foldl (fun m i => memWrite c m (pixelAddr c (x + i) (y + j))
      [pix.getD (2 * (j * k + i)) 0, pix.getD (2 * (j * k + i) + 1) 0]) m
    rising m' = true ∧ (Memory.wf c m = true → Memory.wf c m' = true) ∧
    (Memory.inRange c m = true → pixelAddr c x (y + j) + 2 * n ≤ c.nFb → Memory.inRange c m' = true) ∧
    ∀ a, readCell c m' a =
      if pixelAddr c x (y + j) ≤ a ∧ a < pixelAddr c x (y + j) + 2 * n
      then pix.getD (2 * (j * k) + (a - pixelAddr c x (y + j))) 0 else readCell c m a := by
  induction n with
  | zero => exact ⟨h, id, fun hm _ => hm, fun a => by rw [if_neg (by omega)]; rfl⟩
  | succ n ih =>
    obtain ⟨h1, h2, h3, h4⟩ := ih
    dsimp only
    rw [blitRow_succ]
    refine ⟨rising_memWrite c _ h1 _, fun hm => Memory.wf_memWrite c _ (h2 hm) _, fun hm hn => ?_, fun a => ?_⟩
    · exact Memory.inRange_memWrite c _ (h3 hm (by omega)) _ (by rw [pixelAddr_add]; simp; omega)
    · rw [readCell_memWrite c _ h1, h4, pixelAddr_add]
      simp only [List.length_cons, List.length_nil]
      generalize pixelAddr c x (y + j) = d
      by_cases ha : d + 2 * n ≤ a ∧ a < d + 2 * n + (0 + 1 + 1)
      · rw [if_pos ha, if_pos (by omega)]
        rcases Nat.lt_or_ge a (d + 2 * n + 1) with hlt | hge
        · have : a = d + 2 * n := by omega
          subst this
          simp only [Nat.sub_self, List.getD_cons_zero]
          congr 1; omega
        · have : a = d + 2 * n + 1 := by omega
          subst this
          have e1 : d + 2 * n + 1 - (d + 2 * n) = 1 := by omega
          rw [e1]
          simp only [List.getD_cons_succ, List.getD_cons_zero]
          congr 1; omega
      · rw [if_neg ha]
        by_cases hb : d ≤ a ∧ a < d + 2 * n
        · rw [if_pos hb, if_pos (by omega)]
        · rw [if_neg hb, if_neg (by omega)]

theorem blitRow_spec (x y w j : Nat) (pix : List Byte) {m : List Host.Cell} (h : rising m = true) :
    rising (blitRow c x y w j pix m) = true ∧
    (Memory.wf c m = true → Memory.wf c (blitRow c x y w j pix m) = true) ∧
    (Memory.inRange c m = true → pixelAddr c x (y + j) + 2 * w ≤ c.nFb →
      Memory.inRange c (blitRow c x y w j pix m) = true) ∧
    ∀ a, readCell c (blitRow c x y w j pix m) a =
      if pixelAddr c x (y + j) ≤ a ∧ a < pixelAddr c x (y + j) + 2 * w
      then pix.getD (2 * (j * w) + (a - pixelAddr c x (y + j))) 0 else readCell c m a :=
  blitRow_run c x y j w w pix h

theorem blitRect_succ (x y w h : Nat) (pix : List Byte) (m : List Host.Cell) :
    blitRect c x y w (h + 1) pix m = blitRow c x y w h pix (blitRect c x y w h pix m) := by
  simp [blitRect, List.range_succ]

/-- A rectangle inside the panel's width lies inside the frame memory if its last row does. -/
theorem pixelAddr_row_end {x y w : Nat} (hx : x + w ≤ c.w.toNat) (hy : y < c.h.toNat) :
    pixelAddr c x y + 2 * w ≤ c.nFb := by
  unfold pixelAddr Cfg.nFb
  have h1 : (y + 1) * c.w.toNat ≤ c.h.toNat * c.w.toNat := Nat.mul_le_mul_right _ hy
  have h2 : (y + 1) * c.w.toNat = y * c.w.toNat + c.w.toNat := by rw [Nat.add_mul, Nat.one_mul]
  have h3 : 2 * c.w.toNat * c.h.toNat = 2 * (c.h.toNat * c.w.toNat) := by
    rw [Nat.mul_assoc, Nat.mul_comm c.w.toNat]
  omega

/-- Rows of one rectangle do not overlap. -/
theorem pixelAddr_rows_apart {x w y j j' : Nat} (hx : x + w ≤ c.w.toNat) (hj : j < j') :
    pixelAddr c x (y + j) + 2 * w ≤ pixelAddr c x (y + j') := by
  unfold pixelAddr
  have h1 : (y + j + 1) * c.w.toNat ≤ (y + j') * c.w.toNat := Nat.mul_le_mul_right _ (by omega)
  have h2 : (y + j + 1) * c.w.toNat = (y + j) * c.w.toNat + c.w.toNat := by rw [Nat.add_mul, Nat.one_mul]
  omega

/-- BLIT of `h` rows: every byte of row `j` is the source's, every byte outside the rectangle is as before, and the
memory keeps its form. -/
theorem blitRect_spec (x y w h : Nat) (pix : List Byte) {m : List Host.Cell} (hm : rising m = true)
    (hx : x + w ≤ c.w.toNat) :
    rising (blitRect c x y w h pix m) = true ∧
    (Memory.wf c m = true → Memory.wf c (blitRect c x y w h pix m) = true) ∧
    (Memory.inRange c m = true → y + h ≤ c.h.toNat → Memory.inRange c (blitRect c x y w h pix m) = true) ∧
    (∀ j k, j < h → k < 2 * w →
      readCell c (blitRect c x y w h pix m) (pixelAddr c x (y + j) + k) = pix.getD (2 * (j * w) + k) 0) ∧
    ∀ a, (∀ j, j < h → a < pixelAddr c x (y + j) ∨ pixelAddr c x (y + j) + 2 * w ≤ a) →
      readCell c (blitRect c x y w h pix m) a = readCell c m a := by
  induction h with
  | zero => exact ⟨hm, id, fun h _ => h, fun j k hj => absurd hj (by omega), fun a _ => rfl⟩
  | succ h ih =>
    obtain ⟨i1, i2, i3, i4, i5⟩ := ih
    obtain ⟨r1, r2, r3, r4⟩ := blitRow_spec c x y w h pix i1
    rw [blitRect_succ]
    refine ⟨r1, fun hw => r2 (i2 hw), fun hr hy => r3 (i3 hr (by omega)) ?_, fun j k hj hk => ?_, fun a ha => ?_⟩
    · exact pixelAddr_row_end c hx (by omega)
    · rw [r4]
      rcases Nat.lt_or_ge j h with hlt | hge
      · have := pixelAddr_rows_apart c (y := y) hx hlt
        rw [if_neg (by omega)]
        exact i4 j k hlt hk
      · have : j = h := by omega
        subst this
        rw [if_pos (by omega), Nat.add_sub_cancel_left]
    · rw [r4, if_neg (by have := ha h (by omega); omega)]
      exact i5 a fun j hj => ha j (by omega)

end Sys2Proof.Machine
end

