-- ==== Sys2Proof/Laws/PerInstr.lean ====
section
/-! SUPPORT. Statements about every instruction as syntax, one lemma per constructor. Family FirstByte: the first byte of
an instruction's encoding is the opcode the table gives its row (30_encoding.md rules R73, R87). -/

namespace Sys2Proof.Laws.FirstByte

/-- The opcode byte of each row of spec/opcode_table.json; MADCTL's is the parameter. -/
def tableOpcode (madctlOpcode : Byte) : Instr → Byte
  | .cmd _ => 0x01
  | .data _ => 0x02
  | .reset => 0x10
  | .init => 0x11
  | .present => 0x20
  | .setpx _ _ _ => 0x30
  | .getpx _ _ => 0x31
  | .fill _ => 0x32
  | .blit _ _ _ _ _ => 0x33
  | .rgb565 _ _ _ => 0x40
  | .swreset => 0x01
  | .slpout => 0x11
  | .dispon => 0x29
  | .caset _ _ => 0x2A
  | .paset _ _ => 0x2B
  | .ramwr _ => 0x2C
  | .madctl _ => madctlOpcode

def Statement (i : Instr) : Prop := ∀ madctlOpcode, (encode madctlOpcode i).head? = some (tableOpcode madctlOpcode i)

theorem cmd (op : Byte) : Statement (.cmd op) := fun _ => rfl
theorem data (payload : List Byte) : Statement (.data payload) := fun _ => rfl
theorem reset : Statement .reset := fun _ => rfl
theorem init : Statement .init := fun _ => rfl
theorem present : Statement .present := fun _ => rfl
theorem setpx (x y c : Word16) : Statement (.setpx x y c) := fun _ => rfl
theorem getpx (x y : Word16) : Statement (.getpx x y) := fun _ => rfl
theorem fill (c : Word16) : Statement (.fill c) := fun _ => rfl
theorem blit (x y w h : Word16) (pix : List Byte) : Statement (.blit x y w h pix) := fun _ => rfl
theorem rgb565 (r g b : Byte) : Statement (.rgb565 r g b) := fun _ => rfl
theorem swreset : Statement .swreset := fun _ => rfl
theorem slpout : Statement .slpout := fun _ => rfl
theorem dispon : Statement .dispon := fun _ => rfl
theorem caset (colStart colEnd : Word16) : Statement (.caset colStart colEnd) := fun _ => rfl
theorem paset (rowStart rowEnd : Word16) : Statement (.paset rowStart rowEnd) := fun _ => rfl
theorem ramwr (burst : List Byte) : Statement (.ramwr burst) := fun _ => rfl
theorem madctl (b : Byte) : Statement (.madctl b) := fun _ => rfl

end Sys2Proof.Laws.FirstByte
end

