-- ==== Sys2Proof/Tests/Slice0.lean ====
section
/-! SUPPORT. Tests and witnesses. Expected values come from 95_test_vectors.md (each test names its vector) or from the rule
the comment cites; the instantiation `MADCTL_OPCODE = 0x36` is that file's. Every witness shows a state and operands that
meet the hypotheses of the obligation it is named after, clause by clause. -/

namespace Sys2Proof.Tests

open Sys2Proof.Machine

/-! ### Small states -/

/-- A `W × H` configuration with no reset line and an empty table, and a frame memory of zeros. -/
def cfgOf (w h : Word16) : Cfg where
  w := w
  h := h
  hasRst := false
  orientationDefault := 0x48
  initTablePlain := []
  initTableExtVcc := []
  madctlOpcode := 0x36
  csActiveLevel := .low
  dcCommandLevel := .low
  spiMode := 0
  spiBitOrder := .msbFirst
  spiClockHz := 1000000
  fbInit := List.replicate (2 * w.toNat * h.toNat) 0

/-- Power-on, with the next twelve frames free of bus faults. -/
def fresh (c : Cfg) : State := { State.ofCfg c with draws := List.replicate 12 ⟨none, false⟩ }

/-- A Ready block. -/
def ready (c : Cfg) : State := { fresh c with st := .ready }

/-- A block without chip-select, so Faulted. -/
def faulted : State := fresh { cfgOf 2 2 with hasCs := false }

/-- A Ready 1×1 block whose next frame draws this. -/
def drawing (k : Nat) (csf : Bool) : State := { ready (cfgOf 1 1) with draws := [⟨some k, csf⟩] }

/-- The state a step or a meaning answers. -/
def nextOf : Host.Outcome State Fault Refusal → Option State
  | .next s => some s
  | .fault _ => none
  | .refused _ => none

/-- The log and the responses an instruction leaves. -/
def logAndResps (i : Instr) (s : State) : Option (List Event × List (List Byte)) :=
  (nextOf (exec i s)).map (fun t => (t.log, t.resps))

/-- Several bytes of the frame memory an instruction leaves, and the responses. -/
def bytesAndResps (i : Instr) (s : State) (addrs : List Nat) : Option (List Byte × List (List Byte)) :=
  (nextOf (exec i s)).map (fun t => (addrs.map (readCell t.cfg t.fb), t.resps))

/-! ### WellFormed: every check refuses an ill-formed term -/

theorem test_wf_payload_too_long (p : List Byte) (h : p.length = 2 ^ 32) : (Instr.data p).wf = false := by
  simp [Instr.wf, payloadFits, h]

theorem test_wf_source_length :
    (Instr.blit 0 0 1 1 []).wf = false ∧ (Instr.blit 0 0 1 1 [1]).wf = false ∧
    (Instr.blit 0 0 1 1 [1, 2, 3]).wf = false ∧ (Instr.blit 0 0 1 1 [1, 2]).wf = true := by decide

theorem test_cfg_not_admitted :
    (cfgOf 0 1).admitted = false ∧ (cfgOf 1 0).admitted = false ∧
    ({ cfgOf 3 1 with maxW := 2 } : Cfg).admitted = false ∧ ({ cfgOf 1 3 with maxH := 2 } : Cfg).admitted = false ∧
    (cfgOf 1 1).admitted = true ∧ (cfgOf 65535 1 |>.admitted) = true := by decide

theorem test_fb_init_length :
    ({ cfgOf 1 1 with fbInit := [0] } : Cfg).fbInitFits = false ∧ (cfgOf 1 1).fbInitFits = true := by decide

/-- A memory out of order, and one that lists a byte equal to its background, are not canonical. -/
theorem test_memory_wf :
    Memory.wf (cfgOf 2 2) [(3, 1), (2, 1)] = false ∧ Memory.wf (cfgOf 2 2) [(2, 0)] = false ∧
    Memory.wf (cfgOf 2 2) [(2, 1), (3, 1)] = true ∧ Memory.inRange (cfgOf 2 2) [(8, 1)] = false := by decide

/-! ### Decoding and encoding (95_test_vectors.md section 2.1) -/

/-- V-ENC-1 to V-ENC-6. -/
theorem test_decode_f0_f1_fl :
    decode [0x01, 0x29] = .ok (.cmd 0x29) [] ∧
    decode [0x02, 0x00, 0x00, 0x00, 0x04, 0x00, 0x00, 0x00, 0xEF] = .ok (.data [0x00, 0x00, 0x00, 0xEF]) [] ∧
    decode [0x02, 0x00, 0x00, 0x00, 0x00] = .ok (.data []) [] ∧
    decode [0x10] = .ok .reset [] ∧ decode [0x11] = .ok .init [] ∧ decode [0x20] = .ok .present [] := by decide

/-- V-ENC-7 to V-ENC-12. -/
theorem test_decode_operands :
    decode [0x30, 0x00, 0x01, 0x00, 0x02, 0xF8, 0x00] = .ok (.setpx 1 2 0xF800) [] ∧
    decode [0x31, 0x00, 0x03, 0x00, 0x03] = .ok (.getpx 3 3) [] ∧
    decode [0x32, 0x07, 0xE0] = .ok (.fill 0x07E0) [] ∧
    decode [0x33, 0x00, 0x02, 0x00, 0x03, 0x00, 0x02, 0x00, 0x01, 0x12, 0x34, 0x56, 0x78]
      = .ok (.blit 2 3 2 1 [0x12, 0x34, 0x56, 0x78]) [] ∧
    decode [0x33, 0, 0, 0, 0, 0, 0, 0, 0] = .ok (.blit 0 0 0 0 []) [] ∧
    decode [0x40, 0x08, 0x04, 0x08] = .ok (.rgb565 8 4 8) [] := by decide

/-- V-ENC-13, V-ENC-14, and truncations that stop inside the length field and inside the body. -/
theorem test_decode_refused :
    decode [0x00] = .unassigned 0x00 ∧ decode [0x03] = .unassigned 0x03 ∧ decode [0x21] = .unassigned 0x21 ∧
    decode [0xFF] = .unassigned 0xFF ∧ decode [0x30, 0x00, 0x01] = .truncated ∧ decode [] = .truncated ∧
    decode [0x02, 0, 0, 0] = .truncated ∧ decode [0x02, 0, 0, 0, 2, 9] = .truncated ∧
    decode [0x33, 0, 0, 0, 0, 0, 1, 0, 1, 9] = .truncated := by decide

/-- The encoder gives the bytes of V-ENC-2, V-ENC-7 and V-ENC-10. -/
theorem test_encode :
    encode 0x36 (.data [0x00, 0x00, 0x00, 0xEF]) = [0x02, 0x00, 0x00, 0x00, 0x04, 0x00, 0x00, 0x00, 0xEF] ∧
    encode 0x36 (.setpx 1 2 0xF800) = [0x30, 0x00, 0x01, 0x00, 0x02, 0xF8, 0x00] ∧
    encode 0x36 (.blit 2 3 2 1 [0x12, 0x34, 0x56, 0x78])
      = [0x33, 0x00, 0x02, 0x00, 0x03, 0x00, 0x02, 0x00, 0x01, 0x12, 0x34, 0x56, 0x78] := by decide

/-- The seven wire commands (30_encoding.md R87, R88; the CASET and PASET data of L1-6). -/
theorem test_decode_wire :
    decodeWire 0x36 [0x01] = .ok .swreset ∧ decodeWire 0x36 [0x11] = .ok .slpout ∧
    decodeWire 0x36 [0x29] = .ok .dispon ∧
    decodeWire 0x36 [0x2A, 0x00, 0x00, 0x00, 0xEF] = .ok (.caset 0 239) ∧
    decodeWire 0x36 [0x2B, 0x00, 0x00, 0x01, 0x3F] = .ok (.paset 0 319) ∧
    decodeWire 0x36 [0x2C, 0xAB, 0xCD] = .ok (.ramwr [0xAB, 0xCD]) ∧
    decodeWire 0x36 [0x36, 0x48] = .ok (.madctl 0x48) := by decide

/-- Other opcodes are passed through (R90); R87's opcodes with other data are no command of R87. -/
theorem test_decode_wire_rejects :
    decodeWire 0x36 [0xC0, 0x23] = .other 0xC0 ∧ decodeWire 0x36 [0x2A, 0x00] = .badData 0x2A ∧
    decodeWire 0x36 [0x01, 0x00] = .badData 0x01 ∧ decodeWire 0x36 [] = .empty := by decide

/-- A table word, byte 0 lowest: SETPX 1, 2, 0xF800, and an unassigned opcode. -/
theorem test_decode_table_word :
    decodeTableWord 56 0x00F80200010030 = some (.setpx 1 2 0xF800) ∧ decodeTableWord 8 0x32 = some (.fill 0) ∧
    decodeTableWord 16 0x2901 = some (.cmd 0x29) ∧ decodeTableWord 8 0x2A = none := by decide

/-- Assembly lines (R92, R93): V-ENC-10, the WINDOW and REGCMD expansions, and an operand too wide for its field. -/
theorem test_assemble :
    assemble ⟨.blit, [.num 2, .num 3, .num 2, .num 1, .pixels [0x1234, 0x5678]]⟩
      = some [.blit 2 3 2 1 [0x12, 0x34, 0x56, 0x78]] ∧
    assemble ⟨.window, [.num 1, .num 2, .num 1, .num 1]⟩
      = some [.cmd 0x2A, .data [0, 1, 0, 2], .cmd 0x2B, .data [0, 1, 0, 1]] ∧
    assemble ⟨.regcmd, [.num 0xC0, .bytes [0x23]]⟩ = some [.cmd 0xC0, .data [0x23]] ∧
    assemble ⟨.regcmd, [.num 0xB1, .bytes []]⟩ = some [.cmd 0xB1] ∧
    assemble ⟨.ramwr, [.bytes [0xF8, 0x00]]⟩ = some [.cmd 0x2C, .data [0xF8, 0x00]] ∧
    assemble ⟨.cmd, [.num 256]⟩ = none := by decide

/-! ### The step -/

/-- The block waits with no request pending (R230), runs the first request handed over, and refuses an unassigned one
(R81). -/
theorem test_step :
    nextOf (step (fresh (cfgOf 1 1))) = some (fresh (cfgOf 1 1)) ∧
    (nextOf (step ((fresh (cfgOf 1 1)).withFetchWord 24 0xE00732))).map (fun t => (t.resps, t.rp, t.port))
      = some ([[0x20]], 1, []) ∧
    (nextOf (step ((fresh (cfgOf 1 1)).withFetchWord 8 0xFF))).map (fun t => (t.resps, t.rp, t.refused, t.port))
      = some ([], 1, true, []) := by decide

/-- The first step from reset with FILL handed over answers InitializationError (V-FB-14), whatever the open parameters. -/
theorem test_step_from_reset :
    (nextOf (step (State.reset.withFetchWord 24 0x000032))).map (fun t => t.resps) = some [[0x20]] := by
  simp [State.withFetchWord, step, fetch, tableRequest, wordBytes, requestLength, nextOf]
  decide

/-! ### One step per instruction -/

/-- V-CMD-1, and V-CMD-6 (the fault after the byte, CS left asserted). -/
theorem test_cmd :
    logAndResps (.cmd 0x29) (ready (cfgOf 1 1))
      = some ([.cs true, .dc .command, .byte 0x29, .cs false], [[0x03]]) ∧
    logAndResps (.cmd 0x29) (drawing 1 true) = some ([.cs true, .dc .command, .byte 0x29], [[0x40]]) := by decide

/-- V-DATA-1, V-DATA-3. -/
theorem test_data :
    logAndResps (.data []) (ready (cfgOf 1 1)) = some ([.cs true, .dc .data, .cs false], [[0x03]]) ∧
    logAndResps (.data [0xAA, 0xBB, 0xCC]) (drawing 2 false)
      = some ([.cs true, .dc .data, .byte 0xAA, .byte 0xBB, .cs false], [[0x40]]) := by decide

/-- V-RESET-1, V-RESET-2. -/
theorem test_reset :
    logAndResps .reset (ready { cfgOf 1 1 with hasRst := true })
      = some ([.rst .low, .delay 50, .rst .high, .delay 50], [[0x00]]) ∧
    logAndResps .reset (fresh (cfgOf 1 1))
      = some ([.cs true, .dc .command, .byte 0x01, .cs false, .delay 50], [[0x00]]) := by decide

/-- V-INIT-1: 23 events, the last sleep-out, its wait, display-on and its wait. -/
theorem test_init :
    logAndResps .init (fresh (cfgOf 1 1)) = some (
      [.cs true, .dc .command, .byte 0x01, .cs false, .delay 50,
       .cs true, .dc .command, .byte 0x36, .cs false, .cs true, .dc .data, .byte 0x48, .cs false,
       .cs true, .dc .command, .byte 0x11, .cs false, .delay 120,
       .cs true, .dc .command, .byte 0x29, .cs false, .delay 50], [[0x03]]) := by decide

/-- V-INIT-5: the fault in the table's first data frame. -/
theorem test_init_fault :
    logAndResps .init { fresh { cfgOf 1 1 with initTablePlain := [⟨0xC0, some [0x23]⟩, ⟨0xB1, none⟩, ⟨0xB6, some []⟩] } with
      draws := [⟨none, false⟩, ⟨none, false⟩, ⟨some 0, false⟩] } = some (
      [.cs true, .dc .command, .byte 0x01, .cs false, .delay 50, .cs true, .dc .command, .byte 0xC0, .cs false,
       .cs true, .dc .data, .cs false], [[0x40]]) := by decide

/-- V-PRES-2's event count and response, and V-PRES-8's window, CS and state after a fault. -/
theorem test_present :
    (nextOf (exec .present (ready (cfgOf 2 2)))).map (fun t => (t.log.length, t.resps, t.win))
      = some (37, [[0x03]], some ⟨0, 1, 0, 1⟩) ∧
    (nextOf (exec .present { ready (cfgOf 1 1) with
        draws := List.replicate 5 ⟨none, false⟩ ++ [⟨some 1, true⟩] })).map (fun t => (t.resps, t.win, t.cs, t.st))
      = some ([[0x40]], some ⟨0, 0, 0, 0⟩, true, .uninitialized) := by decide

/-- V-PRES-1: the whole log of a 1×1 panel that holds `AB CD`. -/
theorem test_present_log :
    logAndResps .present (ready { cfgOf 1 1 with fbInit := [0xAB, 0xCD] }) = some (
      [.cs true, .dc .command, .byte 0x2A, .cs false,
       .cs true, .dc .data, .byte 0x00, .byte 0x00, .byte 0x00, .byte 0x00, .cs false,
       .cs true, .dc .command, .byte 0x2B, .cs false,
       .cs true, .dc .data, .byte 0x00, .byte 0x00, .byte 0x00, .byte 0x00, .cs false,
       .cs true, .dc .command, .byte 0x2C, .cs false,
       .cs true, .dc .data, .byte 0xAB, .byte 0xCD, .cs false], [[0x03]]) := by decide

/-- V-FB-2 (the last pixel), V-FB-3 (out of bounds). -/
theorem test_setpx :
    bytesAndResps (.setpx 3 3 0xBEEF) (ready (cfgOf 4 4)) [29, 30, 31] = some ([0x00, 0xBE, 0xEF], [[0x03]]) ∧
    bytesAndResps (.setpx 4 0 0x1111) (ready (cfgOf 4 4)) [0, 1, 8, 9] = some ([0, 0, 0, 0], [[0x33]]) := by decide

/-- V-FB-8, V-FB-9. -/
theorem test_getpx :
    logAndResps (.getpx 3 3) { ready (cfgOf 4 4) with fb := [(30, 0xBE), (31, 0xEF)] } = some ([], [[0x03, 0xBE, 0xEF]]) ∧
    logAndResps (.getpx 4 3) (ready (cfgOf 4 4)) = some ([], [[0x33]]) := by decide

/-- V-FB-12 on a 2×2 panel, V-FB-14. -/
theorem test_fill :
    bytesAndResps (.fill 0xF800) (ready (cfgOf 2 2)) [0, 1, 2, 3, 4, 5, 6, 7]
      = some ([0xF8, 0x00, 0xF8, 0x00, 0xF8, 0x00, 0xF8, 0x00], [[0x03]]) ∧
    logAndResps (.fill 0) (fresh (cfgOf 2 2)) = some ([], [[0x20]]) := by decide

/-- V-FB-15 (L1-8), V-FB-17 (no clipping). -/
theorem test_blit :
    bytesAndResps (.blit 0 0 2 2 [0x11, 0x11, 0x22, 0x22, 0x33, 0x33, 0x44, 0x44]) (ready (cfgOf 4 4))
        [0, 1, 2, 3, 4, 7, 8, 9, 10, 11, 12]
      = some ([0x11, 0x11, 0x22, 0x22, 0, 0, 0x33, 0x33, 0x44, 0x44, 0], [[0x03]]) ∧
    bytesAndResps (.blit 3 3 2 1 [0x12, 0x34, 0x56, 0x78]) (ready (cfgOf 4 4)) [28, 29, 30, 31]
      = some ([0, 0, 0, 0], [[0x33]]) := by decide

/-- V-FB-19 to V-FB-21: empty rectangles inside, beside and below the panel. -/
theorem test_blit_empty :
    logAndResps (.blit 3 3 0 0 []) (ready (cfgOf 4 4)) = some ([], [[0x03]]) ∧
    logAndResps (.blit 4 0 0 0 []) (ready (cfgOf 4 4)) = some ([], [[0x33]]) ∧
    logAndResps (.blit 0 0 0 5 []) (ready (cfgOf 4 4)) = some ([], [[0x33]]) := by decide

/-- V-RGB-1 to V-RGB-5 and L1-1, and V-ERR-4 (the answer from Faulted). -/
theorem test_rgb565 :
    packRgb565 8 4 8 = 0x0821 ∧ packRgb565 7 3 7 = 0 ∧ packRgb565 128 128 128 = 0x8410 ∧
    packRgb565 0x12 0x34 0x56 = 0x11AA ∧ packRgb565 200 100 50 = 0xCB26 ∧ packRgb565 0 255 0 = 0x07E0 ∧
    logAndResps (.rgb565 255 0 0) faulted = some ([], [[0x04, 0xF8, 0x00]]) := by decide

/-- The wire commands with a wait (R120, R122). -/
theorem test_waits :
    logAndResps .swreset (fresh (cfgOf 1 1))
      = some ([.cs true, .dc .command, .byte 0x01, .cs false, .delay 50], []) ∧
    logAndResps .slpout (fresh (cfgOf 1 1))
      = some ([.cs true, .dc .command, .byte 0x11, .cs false, .delay 120], []) ∧
    logAndResps .dispon (fresh (cfgOf 1 1))
      = some ([.cs true, .dc .command, .byte 0x29, .cs false, .delay 50], []) := by decide

/-- The wire commands with data (R88, R89, R123; the CASET data of L1-6). -/
theorem test_wire_data :
    logAndResps (.caset 0 239) (ready (cfgOf 1 1)) = some ([.cs true, .dc .command, .byte 0x2A, .cs false,
      .cs true, .dc .data, .byte 0x00, .byte 0x00, .byte 0x00, .byte 0xEF, .cs false], []) ∧
    logAndResps (.paset 0 319) (ready (cfgOf 1 1)) = some ([.cs true, .dc .command, .byte 0x2B, .cs false,
      .cs true, .dc .data, .byte 0x00, .byte 0x00, .byte 0x01, .byte 0x3F, .cs false], []) ∧
    logAndResps (.ramwr [0xAB]) (ready (cfgOf 1 1)) = some ([.cs true, .dc .command, .byte 0x2C, .cs false,
      .cs true, .dc .data, .byte 0xAB, .cs false], []) ∧
    logAndResps (.madctl 0x48) (ready (cfgOf 1 1)) = some ([.cs true, .dc .command, .byte 0x36, .cs false,
      .cs true, .dc .data, .byte 0x48, .cs false], []) := by decide

/-- V-ERR-1, V-ERR-2, V-FB-11: the order of the checks. -/
theorem test_error_order :
    logAndResps (.setpx 9 9 0) faulted = some ([], [[0x14]]) ∧
    logAndResps (.blit 9 9 1 1 [0, 0]) (fresh (cfgOf 4 4)) = some ([], [[0x20]]) ∧
    logAndResps (.getpx 0 0) faulted = some ([], [[0x14]]) := by decide

/-- A configuration of width 0 has no machine state (R6). -/
theorem test_power_on_refused : State.powerOn (cfgOf 0 1) = .refused .configurationNotAdmitted := rfl

/-! ### Witnesses: states and operands that meet the hypotheses of the obligations -/

/-- The next twelve frames of a Ready block draw no bus fault. -/
theorem quiet (c : Cfg) : (ready c).noBusFault 12 := by
  intro i hi
  have h : (ready c).draws[i]? = some ⟨none, false⟩ := by
    show (List.replicate 12 (⟨none, false⟩ : BusDraw))[i]? = _
    rw [List.getElem?_replicate, if_pos hi]
  simp [State.drawAt, h]

theorem witness_RequestDecodeInvertsEncode :
    (Instr.blit 2 3 2 1 [0x12, 0x34, 0x56, 0x78]).isRequest = true ∧
    (Instr.blit 2 3 2 1 [0x12, 0x34, 0x56, 0x78]).wf = true ∧
    (Instr.data []).isRequest = true ∧ (Instr.data []).wf = true := by decide

theorem witness_DecodedBytesAreTheEncoding :
    decode [0x33, 0, 0, 0, 0, 0, 1, 0, 1, 0xAB, 0xCD, 0xFF] = .ok (.blit 0 0 1 1 [0xAB, 0xCD]) [0xFF] := by decide

/-- MADCTL under another opcode than 0x2C, and RAMWR where `MADCTL_OPCODE` is 0x2C. -/
theorem witness_WireDecodeInvertsEncode :
    Instr.isRequest (.madctl 0x48) = false ∧ (0x36 : Byte) ≠ 0x2C ∧
    Instr.isRequest (.ramwr []) = false ∧ ((0x2C : Byte) ≠ 0x2C ∨ ∀ b, Instr.ramwr [] ≠ .madctl b) :=
  ⟨rfl, by decide, rfl, .inr fun _ h => by cases h⟩

theorem witness_StepRunsTheDecodedRequest :
    (∃ s : State, s.port = [[0x10, 0x20]] ∧ decode [0x10, 0x20] = .ok .reset [0x20]) ∧ ∃ s : State, s.port = [] :=
  ⟨⟨{ fresh (cfgOf 1 1) with port := [[0x10, 0x20]] }, rfl, by decide⟩, ⟨fresh (cfgOf 1 1), rfl⟩⟩

/-- Both kinds of refused string, the empty one and one byte too few among them. -/
theorem witness_UnassignedAndTruncatedRequestsAreRefused :
    (∀ bs : List Byte, ∃ s : State, s.port = [bs]) ∧
    (0xFF : Byte) ∉ ([0x01, 0x02, 0x10, 0x11, 0x20, 0x30, 0x31, 0x32, 0x33, 0x40] : List Byte) ∧
    (¬ ∃ n, requestLength [] = some n ∧ n ≤ ([] : List Byte).length) ∧
    (¬ ∃ n, requestLength [0x02, 0, 0, 0, 1] = some n ∧ n ≤ ([0x02, 0, 0, 0, 1] : List Byte).length) ∧
    (¬ ∃ n, requestLength [0x33, 0, 0, 0, 0, 0, 1, 0] = some n ∧ n ≤ ([0x33, 0, 0, 0, 0, 0, 1, 0] : List Byte).length) := by
  refine ⟨fun bs => ⟨{ fresh (cfgOf 1 1) with port := [bs] }, rfl⟩, by decide, ?_, ?_, ?_⟩
  · rintro ⟨n, h, -⟩; cases h
  · rintro ⟨n, h, hn⟩
    have h6 : requestLength [0x02, 0, 0, 0, 1] = some 6 := by decide
    rw [h6] at h; cases h; simp at hn
  · rintro ⟨n, h, -⟩
    have h0 : requestLength [0x33, 0, 0, 0, 0, 0, 1, 0] = none := by decide
    rw [h0] at h; cases h

theorem witness_EveryRequestAdvancesTheRequestPointer :
    (∃ t, Instr.isRequest .init = true ∧ exec .init faulted = .next t) ∧
    ∃ s t : State, s.port ≠ [] ∧ step s = .next t :=
  ⟨⟨_, rfl, rfl⟩, ⟨{ faulted with port := [[0xFF]] }, _, by decide, rfl⟩⟩

/-- No fault, a fault just beyond the frame, and the faults at the two ends of the frame. -/
theorem witness_CmdSendsOneCommandFrame :
    faulted.st = .faulted ∧
    ((ready (cfgOf 1 1)).st ≠ .faulted ∧ ∀ k, ((ready (cfgOf 1 1)).drawAt 0).bf = some k → 1 < k) ∧
    ((drawing 2 false).st ≠ .faulted ∧ ∀ k, ((drawing 2 false).drawAt 0).bf = some k → 1 < k) ∧
    (((drawing 1 true).drawAt 0).bf = some 1 ∧ ((drawing 0 false).drawAt 0).bf = some 0) := by
  refine ⟨by decide, ⟨by decide, fun k h => by cases h⟩, ⟨by decide, fun k h => by cases h; decide⟩, rfl, rfl⟩

/-- The empty payload, whose only fault is at 0, and a payload whose fault is after its last byte. -/
theorem witness_DataSendsOneBurst :
    faulted.st = .faulted ∧
    ((drawing 3 false).st ≠ .faulted ∧
      ∀ k, ((drawing 3 false).drawAt 0).bf = some k → ([0xAA, 0xBB] : List Byte).length < k) ∧
    (((drawing 0 false).drawAt 0).bf = some 0 ∧ 0 ≤ ([] : List Byte).length) ∧
    (((drawing 2 true).drawAt 0).bf = some 2 ∧ 2 ≤ ([0xAA, 0xBB] : List Byte).length) := by
  refine ⟨by decide, ⟨by decide, fun k h => by cases h; decide⟩, ⟨rfl, by decide⟩, rfl, by decide⟩

/-- Any instruction in any state: the three outcomes are those of `test_error_order`, `test_init` and
`test_init_fault`. -/
theorem witness_EveryInstructionLogsItsEventsOrAPartOfThem :
    (∃ t, exec .present (ready (cfgOf 2 2)) = .next t) ∧ ∃ t, exec (.cmd 0x29) (drawing 1 true) = .next t :=
  ⟨exec_next _ _, exec_next _ _⟩

theorem witness_BracketsNeverNestNorOverlap :
    ∃ t, exec (.cmd 0x29) (drawing 1 false) = .next t ∧
      bracketRun true .closed (drawing 1 false).log = some .closed ∧ t.cs = false :=
  ⟨_, rfl, rfl, by decide⟩

theorem witness_LevelsAfterARawFrame :
    (ready (cfgOf 1 1)).st ≠ .faulted ∧ (ready (cfgOf 1 1)).noBusFault 1 :=
  ⟨by decide, fun i hi => quiet _ i (by omega)⟩

theorem witness_ResetRunsTheResetStep :
    faulted.st = .faulted ∧
    ((ready { cfgOf 1 1 with hasRst := true }).st ≠ .faulted ∧
      (ready { cfgOf 1 1 with hasRst := true }).cfg.hasRst = true) ∧
    ((drawing 2 false).st ≠ .faulted ∧ (drawing 2 false).cfg.hasRst = false ∧
      ∀ k, ((drawing 2 false).drawAt 0).bf = some k → 1 < k) ∧
    (((drawing 1 true).drawAt 0).bf = some 1 ∧ (drawing 1 true).cfg.hasRst = false) := by
  refine ⟨by decide, ⟨by decide, rfl⟩, ⟨by decide, rfl, fun k h => by cases h; decide⟩, rfl, rfl⟩

theorem witness_InitReplaysTheTableAndEndsReady :
    faulted.st = .faulted ∧ (ready (cfgOf 1 1)).st ≠ .faulted ∧
    initFrames (ready (cfgOf 1 1)).cfg = 5 ∧ (ready (cfgOf 1 1)).noBusFault 5 :=
  ⟨by decide, by decide, by decide, fun i hi => quiet _ i (by omega)⟩

theorem witness_WireCommandsWithAWait :
    (fresh (cfgOf 1 1)).st ≠ .faulted ∧ (fresh (cfgOf 1 1)).noBusFault 1 ∧
    (Instr.dispon, (0x29 : Byte), 50) ∈
      ([(.swreset, 0x01, 50), (.slpout, 0x11, 120), (.dispon, 0x29, 50)] : List (Instr × Byte × Nat)) :=
  ⟨by decide, by decide, by decide⟩

theorem witness_WireCommandsWithData : (ready (cfgOf 1 1)).st ≠ .faulted ∧ (ready (cfgOf 1 1)).noBusFault 2 :=
  ⟨by decide, fun i hi => quiet _ i (by omega)⟩

theorem witness_FaultedEmitsNoWireCommand : Instr.isRequest .swreset = false ∧ faulted.st = .faulted := by decide

theorem witness_ResetLineSettlesBeforeTheNextEvent :
    (∃ t, exec .init (ready { cfgOf 1 1 with hasRst := true }) = .next t) ∧
    rstSettled (ready { cfgOf 1 1 with hasRst := true }).log = true ∧ rstSettled [.rst .low, .cs true] = false :=
  ⟨exec_next _ _, rfl, rfl⟩

/-- The smallest panel and the widest. -/
theorem witness_PresentSendsTheWindowThenTheFrameMemory :
    (cfgOf 1 1).admitted = true ∧ { cfgOf 1 1 with w := 65535, fbInit := [] : Cfg }.admitted = true ∧
    (faulted.cfg.admitted = true ∧ faulted.st = .faulted) ∧
    ((fresh (cfgOf 1 1)).st ≠ .faulted ∧ (fresh (cfgOf 1 1)).st ≠ .ready) ∧
    ((ready (cfgOf 1 1)).st = .ready ∧ (ready (cfgOf 1 1)).noBusFault 6) :=
  ⟨by decide, by decide, ⟨by decide, by decide⟩, ⟨by decide, by decide⟩, rfl, fun i hi => quiet _ i (by omega)⟩

theorem witness_PresentOnThe240By320Panel :
    ∃ s : State, s.cfg.w = 240 ∧ s.cfg.h = 320 ∧ s.cfg.admitted = true ∧ s.st = .ready ∧ s.noBusFault 6 :=
  ⟨ready (cfgOf 240 320), rfl, rfl, rfl, rfl, fun i hi => quiet _ i (by omega)⟩

theorem witness_BurstMatchesTheWindow :
    ∃ t, exec .present (ready (cfgOf 2 1)) = .next t ∧ t.resps = (ready (cfgOf 2 1)).resps ++ [[0x03]] :=
  ⟨_, rfl, by decide⟩

theorem witness_PresentIsCasetPasetRamwr :
    (cfgOf 2 2).admitted = true ∧ (ready (cfgOf 2 2)).st = .ready ∧ (ready (cfgOf 2 2)).noBusFault 6 :=
  ⟨by decide, rfl, fun i hi => quiet _ i (by omega)⟩

theorem witness_OnlyPresentWritesTheWindow : ∃ t, exec .present (ready (cfgOf 2 2)) = .next t := exec_next _ _

theorem witness_RawWindowBypassesTheDecoder :
    (fresh (cfgOf 4 4)).st ≠ .faulted ∧ (fresh (cfgOf 4 4)).noBusFault 4 := by decide

/-- The last pixel, and the first column and the first row outside. -/
theorem witness_SetpxWritesOnePixel :
    (Memory.wf faulted.cfg faulted.fb = true ∧ faulted.st = .faulted) ∧
    ((fresh (cfgOf 4 4)).st ≠ .faulted ∧ (fresh (cfgOf 4 4)).st ≠ .ready) ∧
    (Memory.wf (ready (cfgOf 4 4)).cfg (ready (cfgOf 4 4)).fb = true ∧ (ready (cfgOf 4 4)).st = .ready ∧
      (ready (cfgOf 4 4)).cfg.w.toNat ≤ (4 : Word16).toNat ∧ (3 : Word16).toNat < (ready (cfgOf 4 4)).cfg.w.toNat ∧
      (ready (cfgOf 4 4)).cfg.h.toNat ≤ (4 : Word16).toNat ∧ (3 : Word16).toNat < (ready (cfgOf 4 4)).cfg.h.toNat) := by
  decide

/-- The last pixel read, and the first column outside, without Ready. -/
theorem witness_GetpxReadsOnePixel :
    faulted.st = .faulted ∧ (fresh (cfgOf 4 4)).st ≠ .faulted ∧
    (fresh (cfgOf 4 4)).cfg.w.toNat ≤ (4 : Word16).toNat ∧ (3 : Word16).toNat < (fresh (cfgOf 4 4)).cfg.w.toNat ∧
    (3 : Word16).toNat < (fresh (cfgOf 4 4)).cfg.h.toNat := by decide

/-- The same pixel read back, and another one of the same row. -/
theorem witness_GetpxAfterSetpx :
    Memory.wf (ready (cfgOf 4 4)).cfg (ready (cfgOf 4 4)).fb = true ∧ (ready (cfgOf 4 4)).st = .ready ∧
    (3 : Word16).toNat < (ready (cfgOf 4 4)).cfg.w.toNat ∧ (3 : Word16).toNat < (ready (cfgOf 4 4)).cfg.h.toNat ∧
    ¬ ((2 : Word16) = 3 ∧ (3 : Word16) = 3) := by decide

theorem witness_FillSetsEveryPixel :
    (Memory.wf faulted.cfg faulted.fb = true ∧ faulted.st = .faulted) ∧
    (Memory.wf (fresh (cfgOf 2 2)).cfg (fresh (cfgOf 2 2)).fb = true ∧ (fresh (cfgOf 2 2)).st ≠ .faulted ∧
      (fresh (cfgOf 2 2)).st ≠ .ready) ∧
    (Memory.wf (ready (cfgOf 2 2)).cfg [(0, 1), (7, 2)] = true ∧ (ready (cfgOf 2 2)).st = .ready ∧
      3 < (ready (cfgOf 2 2)).cfg.w.toNat * (ready (cfgOf 2 2)).cfg.h.toNat ∧ (ready (cfgOf 2 2)).cfg.nFb ≤ 8) := by decide

theorem witness_FillTwiceIsFillOnce :
    Memory.wf (ready (cfgOf 2 2)).cfg (ready (cfgOf 2 2)).fb = true ∧ (ready (cfgOf 2 2)).st = .ready := by decide

/-- A rectangle that touches the right and the bottom edge, an empty one, and rectangles that pass each edge by one. -/
theorem witness_BlitCopiesTheRectangleOrFails :
    (Memory.wf (ready (cfgOf 4 4)).cfg (ready (cfgOf 4 4)).fb = true ∧ (ready (cfgOf 4 4)).st = .ready) ∧
    (([0x12, 0x34, 0x56, 0x78] : List Byte).length = 2 * (2 : Word16).toNat * (1 : Word16).toNat ∧
      (2 : Word16).toNat < (cfgOf 4 4).w.toNat ∧ (3 : Word16).toNat < (cfgOf 4 4).h.toNat ∧
      (2 : Word16).toNat + (2 : Word16).toNat ≤ (cfgOf 4 4).w.toNat ∧
      (3 : Word16).toNat + (1 : Word16).toNat ≤ (cfgOf 4 4).h.toNat) ∧
    (([] : List Byte).length = 2 * (0 : Word16).toNat * (0 : Word16).toNat ∧
      (cfgOf 4 4).w.toNat ≤ (4 : Word16).toNat) ∧
    ((cfgOf 4 4).w.toNat < (3 : Word16).toNat + (2 : Word16).toNat ∧ (cfgOf 4 4).h.toNat < (0 : Word16).toNat + (5 : Word16).toNat) ∧
    (faulted.st = .faulted ∧ (fresh (cfgOf 4 4)).st ≠ .faulted ∧ (fresh (cfgOf 4 4)).st ≠ .ready) := by decide

theorem witness_BlitOfAnotherLengthIsRefused :
    ([0x12] : List Byte).length ≠ 2 * (1 : Word16).toNat * (1 : Word16).toNat ∧
    ([0x12, 0x34] : List Byte).length ≠ 2 * (0 : Word16).toNat * (1 : Word16).toNat := by decide

theorem witness_BlitOfTheWholePanelReplacesTheFrameMemory :
    Memory.wf (ready (cfgOf 1 2)).cfg (ready (cfgOf 1 2)).fb = true ∧ (cfgOf 1 2).admitted = true ∧
    (ready (cfgOf 1 2)).st = .ready ∧ ([1, 2, 3, 4] : List Byte).length = (ready (cfgOf 1 2)).cfg.nFb := by decide

theorem witness_FrameMemoryRequestsEmitNothing :
    (∃ t, exec (.fill 0xF800) (ready (cfgOf 2 2)) = .next t) ∧ ∃ c, Instr.fill 0xF800 = .fill c :=
  ⟨exec_next _ _, _, rfl⟩

theorem witness_OnlyDrawingWritesTheFrameMemory :
    (∃ t, exec (.setpx 0 0 1) (ready (cfgOf 2 2)) = .next t) ∧ ∃ t, exec .init (ready (cfgOf 2 2)) = .next t :=
  ⟨exec_next _ _, exec_next _ _⟩

theorem witness_AWrittenPixelReachesItsPlaceInTheBurst :
    Memory.wf (ready (cfgOf 2 2)).cfg (ready (cfgOf 2 2)).fb = true ∧ (cfgOf 2 2).admitted = true ∧
    (ready (cfgOf 2 2)).st = .ready ∧ (ready (cfgOf 2 2)).noBusFault 6 ∧
    (1 : Word16).toNat < (ready (cfgOf 2 2)).cfg.w.toNat ∧ (1 : Word16).toNat < (ready (cfgOf 2 2)).cfg.h.toNat :=
  ⟨by decide, by decide, rfl, fun i hi => quiet _ i (by omega), by decide, by decide⟩

theorem witness_OnlyPresentAndGetpxSeeTheFrameMemory :
    Instr.fill 0 ≠ .present ∧ (∀ x y, Instr.fill 0 ≠ .getpx x y) ∧ ∃ t, exec (.fill 0) (ready (cfgOf 2 2)) = .next t :=
  ⟨by decide, fun _ _ h => (by cases h), exec_next _ _⟩

theorem witness_FaultedAnswersConfigurationError :
    faulted.st = .faulted ∧ Instr.isRequest .present = true ∧ Instr.wf .present = true ∧
    ∀ r g b, Instr.present ≠ .rgb565 r g b := ⟨by decide, rfl, rfl, fun _ _ _ h => by cases h⟩

theorem witness_DrawingBeforeReadyFails :
    ((fresh (cfgOf 2 2)).st = .uninitialized ∧ (Instr.blit 9 9 1 1 [0, 0]).wf = true ∧
      ∃ x y w h pix, Instr.blit 9 9 1 1 [0, 0] = .blit x y w h pix) ∧
    (∃ t, exec .init (fresh (cfgOf 2 2)) = .next t) :=
  ⟨⟨by decide, by decide, _, _, _, _, _, rfl⟩, exec_next _ _⟩

theorem witness_BusFaultLeavesTheBlockUninitialized :
    ∃ t, exec (.cmd 0x29) (drawing 1 true) = .next t ∧ t.resps = (drawing 1 true).resps ++ [(0x40 : Byte) :: []] ∧
      (0x40 : Byte).extractLsb' 4 4 = 4 := ⟨_, rfl, by decide, by decide⟩

/-- 42_window_present.md R141: a PRESENT whose last frame fails keeps the new window. -/
theorem test_present_fault_keeps_window :
    (nextOf (exec .present { ready (cfgOf 2 1) with draws := List.replicate 5 ⟨none, false⟩ ++ [⟨some 1, true⟩] })).map
      (fun t => (t.win, t.resps)) =
    some (some { colStart := 0, colEnd := 1, rowStart := 0, rowEnd := 0 }, [[0x40]]) := by decide

/-- The last frame of a PRESENT, at `k = 1` of its two bytes; the first frame of an INIT, at `k = 0`; a wire row's second
frame, at `k = n`; a DATA of no payload. -/
theorem witness_AFailedFrameEndsTheRequest :
    (let s := { ready (cfgOf 1 1) with draws := List.replicate 5 ⟨none, false⟩ ++ [⟨some 1, true⟩] }
     let before := commandFrame 0x2A ++ dataFrame [0, 0, 0, 0] ++ (commandFrame 0x2B ++ dataFrame [0, 0, 0, 0])
       ++ commandFrame 0x2C
     s.st ≠ .faulted ∧ (s.st = .ready ∧ s.cfg.admitted = true) ∧
       before ++ ([.cs true, .dc .data] ++ [0, 0].map .byte ++ [.cs false]) <+: fullEvents s .present ∧
       s.noBusFault (before.count (.cs true)) ∧ s.drawAt (before.count (.cs true)) = ⟨some 1, true⟩) ∧
    (let s := { fresh (cfgOf 1 1) with draws := [⟨some 0, false⟩] }
     s.st ≠ .faulted ∧
       [] ++ ([.cs true, .dc .command] ++ [0x01].map .byte ++ [.cs false]) <+: fullEvents s .init ∧
       s.noBusFault 0 ∧ s.drawAt 0 = ⟨some 0, false⟩) ∧
    (let s := { fresh (cfgOf 1 1) with draws := [⟨none, false⟩, ⟨some 4, true⟩] }
     let before := commandFrame 0x2A
     s.st ≠ .faulted ∧
       before ++ ([.cs true, .dc .data] ++ [0, 1, 0, 2].map .byte ++ [.cs false]) <+: fullEvents s (.caset 1 2) ∧
       s.noBusFault (before.count (.cs true)) ∧ s.drawAt (before.count (.cs true)) = ⟨some 4, true⟩) ∧
    (let s := drawing 0 true
     s.st ≠ .faulted ∧ [] ++ ([.cs true, .dc .data] ++ [].map .byte ++ [.cs false]) <+: fullEvents s (.data []) ∧
       s.noBusFault 0 ∧ s.drawAt 0 = ⟨some 0, true⟩) :=
  ⟨⟨by decide, by decide, by decide, by decide, by decide⟩, ⟨by decide, by decide, by decide, by decide⟩,
    ⟨by decide, by decide, by decide, by decide⟩, ⟨by decide, by decide, by decide, by decide⟩⟩

theorem witness_EarlyErrorsArePrecise :
    (∃ t, exec (.cmd 0x29) faulted = .next t ∧ t.resps = faulted.resps ++ [(0x14 : Byte) :: []] ∧
      (0x14 : Byte).extractLsb' 4 4 ∈ ([1, 2, 3] : List (BitVec 4))) ∧
    (∃ t, exec (.setpx 4 0 0) (ready (cfgOf 4 4)) = .next t ∧
      t.resps = (ready (cfgOf 4 4)).resps ++ [(0x33 : Byte) :: []] ∧
      (0x33 : Byte).extractLsb' 4 4 ∈ ([1, 2, 3] : List (BitVec 4))) :=
  ⟨⟨_, rfl, by decide, by decide⟩, ⟨_, rfl, by decide, by decide⟩⟩

theorem witness_EveryResponseHasItsForm :
    Instr.isRequest (.getpx 0 0) = true ∧ Instr.wf (.getpx 0 0) = true ∧
    ∃ t, exec (.getpx 0 0) (ready (cfgOf 1 1)) = .next t := ⟨rfl, rfl, exec_next _ _⟩

theorem witness_StChangesOnlyAsTabled :
    (∃ t, exec .init (fresh (cfgOf 1 1)) = .next t ∧ t.st = .ready) ∧
    (∃ t, exec .reset (ready (cfgOf 1 1)) = .next t ∧ t.st = .uninitialized) ∧
    (∃ t, exec (.cmd 0x29) (drawing 0 false) = .next t ∧ t.st = .uninitialized) :=
  ⟨⟨_, rfl, by decide⟩, ⟨_, rfl, by decide⟩, ⟨_, rfl, by decide⟩⟩

theorem witness_FaultedIsTerminal : (∃ t, exec .init faulted = .next t) ∧ faulted.st = .faulted :=
  ⟨exec_next _ _, by decide⟩

theorem witness_OnlyTheResetStepDrivesTheResetLine :
    ∃ t, exec .reset (ready { cfgOf 1 1 with hasRst := true }) = .next t := exec_next _ _

theorem witness_PowerOnValues :
    (cfgOf 2 2).admitted = true ∧ (cfgOf 2 2).fbInitFits = true ∧ faulted.cfg.admitted = true ∧
    faulted.cfg.fbInitFits = true := by decide

/-- Both ends of the range, and the values just outside. -/
theorem witness_OnlyAdmittedConfigurationsPowerOn :
    (1 ≤ (cfgOf 1 1).w.toNat ∧ (cfgOf 1 1).w.toNat ≤ (cfgOf 1 1).maxW ∧ 1 ≤ (cfgOf 1 1).h.toNat ∧
      (cfgOf 1 1).h.toNat ≤ (cfgOf 1 1).maxH) ∧
    ¬ (1 ≤ (cfgOf 1 0).h.toNat) := by decide

theorem witness_ConfigurationIsReadOnly :
    (∃ t, exec .init (ready (cfgOf 1 1)) = .next t) ∧ ∃ t, step (fresh (cfgOf 1 1)) = .next t :=
  ⟨exec_next _ _, _, rfl⟩

/-- A Ready state with a written window, a drawn pixel and CS left asserted meets the invariant. -/
theorem witness_EveryStepKeepsTheInvariant :
    ∃ s t : State, s.Inv ∧ s.st = .ready ∧ s.port ≠ [] ∧ step s = .next t := by
  refine ⟨{ ready (cfgOf 2 2) with
      port := [[0x20]]
      fb := [(6, 0xF8)]
      win := some ⟨0, 1, 0, 1⟩
      cs := true
      dc := some .data
      log := [.cs true, .dc .data, .byte 0xAB] }, _, ?_, rfl, by decide, rfl⟩
  exact
    { admitted := by decide
      fbInitFits := by decide
      fbCanonical := by decide
      fbInRange := by decide
      stResting := by decide
      stFaulted := by decide
      rstHigh := by decide
      winValid := fun v h => by cases h; decide
      seqIdle := rfl
      csLogged := rfl
      dcLogged := rfl
      gated := rfl }

theorem witness_PowerOnMeetsTheInvariant : (cfgOf 2 2).admitted = true ∧ (cfgOf 2 2).fbInitFits = true := by decide

theorem witness_EveryRunFromPowerOnKeepsTheInvariant :
    (cfgOf 2 2).admitted = true ∧ (cfgOf 2 2).fbInitFits = true ∧
    ∃ t, Host.Core.run Sys2Proof.core 1 ({ State.ofCfg (cfgOf 2 2) with port := [[0x32, 0x07, 0xE0]], draws := [] } : State)
      = .next t := ⟨by decide, by decide, _, rfl⟩

end Sys2Proof.Tests
end

/-! ## Scope: the wire rows' bytes, and which configurations power on (00_scope.md R3, R6) -/

namespace Sys2Proof

/-! ### Reading a wire command's bytes (30_encoding.md R87 to R89) -/

/-- RAMWR's opcode is read as RAMWR whatever `MADCTL_OPCODE` is and however many data bytes follow (log 9). -/
@[simp] theorem decodeWire_opRamwr (mad : Byte) (burst : List Byte) :
    decodeWire mad (opRamwr :: burst) = .ok (.ramwr burst) := by
  simp [decodeWire]

/-- One data byte after `MADCTL_OPCODE` is MADCTL, unless RAMWR has that opcode. -/
theorem decodeWire_madctl {mad : Byte} (h : mad ≠ opRamwr) (b : Byte) : decodeWire mad [mad, b] = .ok (.madctl b) := by
  simp [decodeWire, h]

@[simp] theorem decodeWire_opCaset (mad a1 a0 b1 b0 : Byte) :
    decodeWire mad [opCaset, a1, a0, b1, b0] = .ok (.caset (ofBe16 a1 a0) (ofBe16 b1 b0)) := rfl

@[simp] theorem decodeWire_opPaset (mad a1 a0 b1 b0 : Byte) :
    decodeWire mad [opPaset, a1, a0, b1, b0] = .ok (.paset (ofBe16 a1 a0) (ofBe16 b1 b0)) := rfl

/-- Settles O3, row by row of R87: the number of data bytes keeps the rows of equal opcode apart, RAMWR and MADCTL
excepted, and the big-endian fields of CASET and PASET are read back by `ofBe16_be16`. -/
theorem wireDecodeInvertsEncode : Obligations.WireDecodeInvertsEncode := by
  intro mad i hwire hmad
  match i, hwire with
  | .swreset, _ => rfl
  | .slpout, _ => rfl
  | .dispon, _ => rfl
  | .caset cs ce, _ => simp [encode, be16]
  | .paset rs re, _ => simp [encode, be16]
  | .ramwr burst, _ => exact decodeWire_opRamwr mad burst
  | .madctl b, _ =>
    have hne : mad ≠ opRamwr := hmad.resolve_right fun h => h b rfl
    exact decodeWire_madctl hne b

/-! ### Admission and power-on (00_scope.md R6) -/

theorem Cfg.admitted_iff (c : Cfg) :
    c.admitted = true ↔ 1 ≤ c.w.toNat ∧ c.w.toNat ≤ c.maxW ∧ 1 ≤ c.h.toNat ∧ c.h.toNat ≤ c.maxH := by
  simp only [Cfg.admitted, Bool.and_eq_true, decide_eq_true_eq, and_assoc]

end Sys2Proof

namespace Sys2Proof.Machine

theorem State.powerOn_of_admitted {c : Cfg} (h : c.admitted = true) : State.powerOn c = .next (State.ofCfg c) :=
  if_pos h

theorem State.powerOn_of_not_admitted {c : Cfg} (h : ¬ c.admitted = true) :
    State.powerOn c = .refused .configurationNotAdmitted :=
  if_neg h

/-- Without DC or CS the power-on state is Faulted; with both it is Uninitialized (R6, R31). -/
theorem State.ofCfg_st (c : Cfg) :
    (State.ofCfg c).st = if c.hasDc = false ∨ c.hasCs = false then .faulted else .uninitialized := by
  cases hdc : c.hasDc <;> cases hcs : c.hasCs <;> simp [State.ofCfg, hdc, hcs]

/-- Settles O49: `powerOn` branches on `admitted`, which is the range check of R6. -/
theorem onlyAdmittedConfigurationsPowerOn : Obligations.OnlyAdmittedConfigurationsPowerOn := by
  intro c
  rw [← c.admitted_iff]
  constructor
  · intro hadm
    exact ⟨State.ofCfg c, State.powerOn_of_admitted hadm, fun hline => (State.ofCfg_st c).trans (if_pos hline)⟩
  · exact State.powerOn_of_not_admitted

end Sys2Proof.Machine

/-! ## The state: what every instruction and every step keeps (10_state.md) -/

namespace Sys2Proof

/-! ### The request decoder yields requests only (00_scope.md R3) -/

theorem decodeFields_isRequest {op : ReqOp} {bs more : List Byte} {i : Instr}
    (h : decodeFields op bs = some (i, more)) : i.isRequest = true := by
  cases op with
  | reset | init | present => cases h; rfl
  | cmd | setpx | getpx | fill | rgb565 =>
    simp only [decodeFields] at h
    split at h <;> cases h
    rfl
  | data | blit =>
    simp only [decodeFields] at h
    split at h
    · obtain ⟨p, -, hp⟩ := Option.map_eq_some_iff.mp h
      cases hp
      rfl
    · cases h

theorem decode_isRequest {bs rest : List Byte} {i : Instr} (h : decode bs = .ok i rest) : i.isRequest = true := by
  unfold decode at h
  split at h
  · cases h
  · split at h
    · cases h
    · split at h
      · cases h
      · rename_i hf
        cases h
        exact decodeFields_isRequest hf

/-! ### The configuration that reset powers on (00_scope.md R5, R6; log 2) -/

theorem Config.cfg_admitted : Config.cfg.admitted = true := by
  have hw := Config.widthPred.isLt
  have hh := Config.heightPred.isLt
  rw [Cfg.admitted_iff]
  simp only [Config.cfg, BitVec.toNat_ofNat]
  omega

theorem Config.cfg_fbInitFits : Config.cfg.fbInitFits = true := by
  simp [Cfg.fbInitFits, Cfg.nFb, Config.cfg]

end Sys2Proof

namespace Sys2Proof.Machine

/-! ### What a step can do -/

/-- What one step can do, said once: wait, refuse the oldest byte string, or run the request it decodes to. -/
theorem step_cases {s t : State} (h : step s = .next t) :
    (s.port = [] ∧ t = s) ∨
    (∃ bytes port, s.port = bytes :: port ∧ t = (s.setPort port).refuse) ∨
    ∃ bytes port i rest, s.port = bytes :: port ∧ decode bytes = .ok i rest ∧
      exec i (s.setPort (keepRest rest port)) = .next t := by
  unfold step fetch at h
  cases hp : s.port with
  | nil => rw [hp] at h; cases h; exact .inl ⟨rfl, rfl⟩
  | cons bytes port =>
    rw [hp] at h
    cases hd : decode bytes with
    | ok i rest => simp only [hd] at h; exact .inr (.inr ⟨bytes, port, i, rest, rfl, hd, h⟩)
    | unassigned op => simp only [hd] at h; cases h; exact .inr (.inl ⟨bytes, port, rfl, rfl⟩)
    | truncated => simp only [hd] at h; cases h; exact .inr (.inl ⟨bytes, port, rfl, rfl⟩)

/-- `step` answers a next state in every state: a refusal is one too (60_exceptions.md R210, R219). -/
theorem step_next (s : State) : ∃ t, step s = .next t := by
  unfold step
  split
  · exact ⟨_, rfl⟩
  · exact ⟨_, rfl⟩
  · exact exec_next _ _

/-! ### Field by field, over every instruction -/

section

variable {s t : State} {i : Instr}

theorem exec_cfg (h : exec i s = .next t) : t.cfg = s.cfg := by
  cases exec_cases i s t h with
  | refused _ _ _ _ _ _ _ ht | early _ _ _ _ _ ht => rw [ht]; rfl
  | bus hb => exact hb.cfg
  | done hc => exact hc.cfg

theorem exec_rp (hreq : i.isRequest = true) (h : exec i s = .next t) : t.rp = s.rp + 1 := by
  cases exec_cases i s t h with
  | refused _ _ _ _ _ _ _ ht | early _ _ _ _ _ ht => rw [ht]; rfl
  | bus hb => exact hb.rp
  | done hc => obtain ⟨-, hrp, -⟩ := hc.answer hreq; exact hrp

/-- Between two requests the sequencer is idle (R28); a wire row, a stage of a running request, leaves it busy. -/
theorem exec_seq (hreq : i.isRequest = true) (hs : s.seq = .idle) (h : exec i s = .next t) : t.seq = .idle := by
  cases exec_cases i s t h with
  | refused _ _ _ _ _ _ _ ht => rw [ht]; exact hs
  | early _ _ _ _ _ ht => rw [ht]; rfl
  | bus hb => exact hb.seq
  | done hc => obtain ⟨-, -, hseq⟩ := hc.answer hreq; exact hseq

theorem exec_winMay (h : exec i s = .next t) : WinMay s t i := by
  cases exec_cases i s t h with
  | refused _ _ _ _ _ _ _ ht | early _ _ _ _ _ ht => rw [ht]; exact .inl rfl
  | bus hb => exact hb.winMay
  | done hc => exact hc.win

theorem exec_rstMay (h : exec i s = .next t) : RstMay s t i := by
  cases exec_cases i s t h with
  | refused _ _ _ _ _ _ _ ht | early _ _ _ _ _ ht => rw [ht]; exact .inl rfl
  | bus hb => exact hb.rstMay
  | done hc => exact hc.rst

/-- What an instruction logs: events of its full event list, and the `CS(false)` that may close a failed frame. -/
theorem exec_log_mem (h : exec i s = .next t) :
    ∃ es, t.log = s.log ++ es ∧ ∀ e ∈ es, e ∈ fullEvents s i ∨ e = .cs false := by
  cases exec_cases i s t h with
  | refused _ _ _ _ _ _ _ ht | early _ _ _ _ _ ht => exact ⟨[], by rw [ht, List.append_nil]; rfl, by simp⟩
  | bus hb =>
    obtain ⟨p, hp, hlog⟩ := hb.log
    refine ⟨p ++ (if t.cs then [] else [.cs false]), by rw [hlog, List.append_assoc], fun e he => ?_⟩
    rcases List.mem_append.mp he with hmem | hmem
    · exact .inl (hp.subset hmem)
    · cases hcs : t.cs <;> simp [hcs] at hmem
      exact .inr hmem
  | done hc => exact ⟨_, hc.log, fun e he => .inl he⟩

/-- `st` after a completed instruction: INIT and RESET write it, and no other (R30). -/
theorem stAfter_cases (s : State) (i : Instr) :
    stAfter s i = s.st ∨ (i = .init ∧ stAfter s i = .ready) ∨ (i = .reset ∧ stAfter s i = .uninitialized) := by
  cases i with
  | reset => exact .inr (.inr ⟨rfl, rfl⟩)
  | init => exact .inr (.inl ⟨rfl, rfl⟩)
  | _ => exact .inl rfl

/-- In Faulted an instruction logs nothing (R33): it answers at the gate, or it is RGB565, which sends no frame. -/
theorem exec_log_of_faulted (h : exec i s = .next t) (hs : s.st = .faulted) : t.log = s.log := by
  cases exec_cases i s t h with
  | refused _ _ _ _ _ _ _ ht | early _ _ _ _ _ ht => rw [ht]; rfl
  | bus hb => exact absurd hs hb.running
  | done hc =>
    by_cases hrgb : ∃ r g b, i = .rgb565 r g b
    · obtain ⟨r, g, b, rfl⟩ := hrgb
      rw [hc.log]
      exact List.append_nil _
    · exact absurd hs (hc.running fun r g b hi => hrgb ⟨r, g, b, hi⟩)

end

/-- Settles O8: `exec_rp` for a request, and with one pending a step refuses or runs one. -/
theorem everyRequestAdvancesTheRequestPointer : Obligations.EveryRequestAdvancesTheRequestPointer := by
  refine ⟨fun s t i hreq h => exec_rp hreq h, fun s t hport h => ?_⟩
  rcases step_cases h with ⟨hempty, -⟩ | ⟨_, _, -, rfl⟩ | ⟨_, port, _, rest, -, hdec, hexec⟩
  · exact absurd hempty hport
  · rfl
  · exact exec_rp (s := s.setPort (keepRest rest port)) (decode_isRequest hdec) hexec

/-- Settles O25: `WinMay` of every instruction, of which PRESENT alone has the second case. -/
theorem onlyPresentWritesTheWindow : Obligations.OnlyPresentWritesTheWindow :=
  fun _ _ _ h => exec_winMay h

/-- Settles O45: an early answer leaves `st`, a bus fault sets it, and a completed instruction leaves `stAfter`. -/
theorem stChangesOnlyAsTabled : Obligations.StChangesOnlyAsTabled := by
  intro s t i h
  cases exec_cases i s t h with
  | refused _ _ _ _ _ _ _ ht | early _ _ _ _ _ ht => rw [ht]; exact .inl rfl
  | bus hb => exact .inr ⟨hb.running, .inr (.inr ⟨hb.resps, hb.st⟩)⟩
  | done hc =>
    rw [hc.st]
    rcases stAfter_cases s i with hst | ⟨rfl, hst⟩ | ⟨rfl, hst⟩
    · exact .inl hst
    · exact .inr ⟨hc.running (by simp), .inl ⟨rfl, hst⟩⟩
    · exact .inr ⟨hc.running (by simp), .inr (.inl ⟨rfl, hst⟩)⟩

/-- Settles O46: every row of R30's table that changes `st` starts outside Faulted. -/
theorem faultedIsTerminal : Obligations.FaultedIsTerminal := by
  intro s t i h hs
  refine ⟨?_, exec_log_of_faulted h hs⟩
  rcases stChangesOnlyAsTabled s t i h with hst | ⟨hrunning, -⟩
  · rw [hst, hs]
  · exact absurd hs hrunning

/-- Settles O47: what is logged comes from the full event list, and `rst_mem_fullEvents` says whose list holds a
reset-line event. -/
theorem onlyTheResetStepDrivesTheResetLine : Obligations.OnlyTheResetStepDrivesTheResetLine := by
  intro s t i h
  refine ⟨exec_rstMay h, ?_⟩
  obtain ⟨es, hlog, hmem⟩ := exec_log_mem h
  refine ⟨es, hlog, fun l hl => ?_⟩
  rcases hmem _ hl with hfull | hcs
  · exact rst_mem_fullEvents hfull
  · cases hcs

/-- Settles O50: no instruction writes `cfg`, and neither do fetching and refusing. -/
theorem configurationIsReadOnly : Obligations.ConfigurationIsReadOnly := by
  refine ⟨fun s t i h => exec_cfg h, fun s t h => ?_⟩
  rcases step_cases h with ⟨-, rfl⟩ | ⟨_, _, -, rfl⟩ | ⟨_, port, _, rest, -, -, hexec⟩
  · rfl
  · rfl
  · exact exec_cfg (s := s.setPort (keepRest rest port)) hexec

/-! ### The lines after a raw frame (R24, R25) -/

theorem State.csLevel_of_released {s : State} (h : s.cs = false) : s.csLevel = otherLevel s.cfg.csActiveLevel := by
  simp [State.csLevel, h]

theorem State.dcLevel_of_command {s : State} (h : s.dc = some .command) : s.dcLevel = some s.cfg.dcCommandLevel := by
  simp [State.dcLevel, h]

theorem State.dcLevel_of_data {s : State} (h : s.dc = some .data) :
    s.dcLevel = some (otherLevel s.cfg.dcCommandLevel) := by
  simp [State.dcLevel, h]

/-- A request of one frame, with no bus fault: the lines it leaves. -/
theorem complete_frame_lines {m : Mode} {bs : List Byte} {s t : State} (hs : s.st ≠ .faulted) (hn : s.noBusFault 1)
    (ht : complete ((faultedGate s).andThen (frame m bs)) = t) : t.cs = false ∧ t.dc = some m ∧ t.cfg = s.cfg := by
  subst ht
  rw [faultedGate_passes hs, Res.andThen_ok, frame_ran m bs hn]
  exact ⟨rfl, rfl, rfl⟩

/-- Settles O14: CMD and DATA are one frame each, which releases CS and leaves DC at its mode. -/
theorem levelsAfterARawFrame : Obligations.LevelsAfterARawFrame := by
  intro s hs hn
  constructor
  · intro op
    obtain ⟨hcs, hdc, hcfg⟩ := complete_frame_lines (m := .command) (bs := [op]) hs hn rfl
    exact ⟨_, rfl, hcfg ▸ State.csLevel_of_released hcs, hcfg ▸ State.dcLevel_of_command hdc⟩
  · intro payload
    obtain ⟨hcs, hdc, hcfg⟩ := complete_frame_lines (m := .data) (bs := payload) hs hn rfl
    exact ⟨_, rfl, hcfg ▸ State.csLevel_of_released hcs, hcfg ▸ State.dcLevel_of_data hdc⟩

/-! ### Power-on (R31, R35) -/

/-- A memory that lists nothing reads as `FB_INIT` (20_memory.md R51). -/
theorem memRead_nil {c : Cfg} (h : c.fbInitFits = true) : memRead c [] 0 c.nFb = c.fbInit := by
  have hlen : c.fbInit.length = c.nFb := by simpa [Cfg.fbInitFits] using h
  refine List.ext_getElem (by simp [memRead, hlen]) fun n _ hn => ?_
  simp [memRead, unlisted, hn]

/-- Settles O48: an admitted configuration powers on as `State.ofCfg`, whose memory lists no byte. -/
theorem powerOnValues : Obligations.PowerOnValues := by
  intro c hadm hfits
  exact ⟨State.ofCfg c, State.powerOn_of_admitted hadm, rfl, State.ofCfg_st c, rfl, rfl, rfl, rfl, rfl, rfl, rfl,
    memRead_nil hfits⟩

theorem State.ofCfg_inv {c : Cfg} (hadm : c.admitted = true) (hfits : c.fbInitFits = true) : (State.ofCfg c).Inv where
  admitted := hadm
  fbInitFits := hfits
  fbCanonical := Memory.wf_nil c
  fbInRange := Memory.inRange_nil c
  stResting := by rw [State.ofCfg_st]; split <;> simp
  stFaulted := by
    show (if _ then _ else _) = _ ↔ (c.hasDc && c.hasCs) = false
    cases c.hasDc && c.hasCs <;> simp
  rstHigh := rfl
  winValid := by intro v hv; cases hv
  seqIdle := rfl
  csLogged := rfl
  dcLogged := rfl
  gated := rfl

/-- Settles O52: `Config.cfg` is an admitted configuration too, whatever its constants are. -/
theorem powerOnMeetsTheInvariant : Obligations.PowerOnMeetsTheInvariant :=
  ⟨fun _ => State.ofCfg_inv, State.ofCfg_inv Config.cfg_admitted Config.cfg_fbInitFits⟩

/-! ### The frame memory keeps its form (20_memory.md R50) -/

theorem pixelInside_iff (c : Cfg) (x y : Word16) :
    pixelInside c x y = true ↔ x.toNat < c.w.toNat ∧ y.toNat < c.h.toNat := by
  simp [pixelInside]

theorem rectInside_iff (c : Cfg) (x y w h : Word16) :
    rectInside c x y w h = true ↔ (x.toNat < c.w.toNat ∧ y.toNat < c.h.toNat) ∧
      x.toNat + w.toNat ≤ c.w.toNat ∧ y.toNat + h.toNat ≤ c.h.toNat := by
  simp [rectInside, pixelInside_iff, and_assoc]

/-- Canonical and in range: the two clauses of the invariant about the frame memory. -/
def Memory.Sound (c : Cfg) (m : List Host.Cell) : Prop := Memory.wf c m = true ∧ Memory.inRange c m = true

section

variable {c : Cfg} {m : List Host.Cell} (hm : Memory.Sound c m)
include hm

theorem Memory.sound_memWrite {a : Nat} {bs : List Byte} (ha : a + bs.length ≤ c.nFb) :
    Memory.Sound c (memWrite c m a bs) :=
  ⟨Memory.wf_memWrite c bs hm.1 a, Memory.inRange_memWrite c bs hm.2 a ha⟩

theorem Memory.sound_fillPixels (v : Word16) : Memory.Sound c (fillPixels c v (c.w.toNat * c.h.toNat) m) :=
  ⟨Memory.wf_fillPixels c v _ hm.1, Memory.inRange_fillPixels c v _ hm.2 (by rw [Cfg.nFb, Nat.mul_assoc])⟩

theorem Memory.sound_blitRect {x y w h : Nat} (pix : List Byte) (hx : x + w ≤ c.w.toNat) (hy : y + h ≤ c.h.toNat) :
    Memory.Sound c (blitRect c x y w h pix m) := by
  obtain ⟨-, hwf, hrange, -, -⟩ := blitRect_spec c x y w h pix (Memory.rising_of_wf c hm.1) hx
  exact ⟨hwf hm.1, hrange hm.2 hy⟩

end

/-- The frame memory after a drawing request: as before, or, past the gate and the bounds check, the one change. -/
theorem complete_drawing_fb {s t : State} {inside : Cfg → Bool} {g : State → List Host.Cell}
    (ht : complete ((drawGate s).andThen fun s => (boundsGate (inside s.cfg) s).andThen fun s =>
      .ok (s.setFb (g s))) = t) : t.fb = s.fb ∨ (inside s.cfg = true ∧ t.fb = g s) := by
  subst ht
  by_cases hf : s.st = .faulted
  · rw [drawGate_faulted hf]; exact .inl rfl
  by_cases hr : s.st = .ready
  · rw [drawGate_ready hr, Res.andThen_ok]
    cases hin : inside s.cfg
    · exact .inl rfl
    · exact .inr ⟨rfl, rfl⟩
  · rw [drawGate_notReady hf hr]; exact .inl rfl

theorem exec_fb_of_not_drawing {s t : State} {i : Instr} (hd : isDrawing i = false) (h : exec i s = .next t) :
    t.fb = s.fb := by
  cases exec_cases i s t h with
  | refused _ _ _ _ _ _ _ ht | early _ _ _ _ _ ht => rw [ht]; rfl
  | bus hb => exact hb.fb
  | done hc => exact hc.fb.resolve_left (by simp [hd])

/-- The bounds checks keep SETPX and BLIT inside `0 .. N_FB-1`, and FILL stops at its end. -/
theorem exec_memory_sound {s t : State} {i : Instr} (hm : Memory.Sound s.cfg s.fb) (h : exec i s = .next t) :
    Memory.Sound s.cfg t.fb := by
  cases i with
  | setpx x y c =>
    cases h
    rcases complete_drawing_fb (s := s) (inside := fun cfg => pixelInside cfg x y) rfl with hfb | ⟨hin, hfb⟩
    · exact hfb ▸ hm
    · obtain ⟨hx, hy⟩ := (pixelInside_iff _ _ _).mp hin
      exact hfb ▸ Memory.sound_memWrite hm (pixelAddr_row_end s.cfg (w := 1) hx hy)
  | fill c =>
    cases h
    rcases complete_drawing_fb (s := s) (inside := fun _ => true) rfl with hfb | ⟨-, hfb⟩
    · exact hfb ▸ hm
    · exact hfb ▸ Memory.sound_fillPixels hm c
  | blit x y w h' pix =>
    cases h
    split
    · rcases complete_drawing_fb (s := s) (inside := fun cfg => rectInside cfg x y w h') rfl with hfb | ⟨hin, hfb⟩
      · exact hfb ▸ hm
      · obtain ⟨-, hx, hy⟩ := (rectInside_iff _ _ _ _ _).mp hin
        exact hfb ▸ Memory.sound_blitRect hm pix hx hy
    · exact hm
  | _ => exact exec_fb_of_not_drawing rfl h ▸ hm

/-! ### The lines are as the log last drove them (R24, R25; 40_framer.md R105, R106) -/

/-- The invariant's three clauses about the log: it accounts for CS and DC, and every byte lies inside a bracket. -/
structure LinesLogged (s : State) : Prop where
  cs : s.cs = lastCs s.log
  dc : s.dc = lastDc s.log
  bracket : bracketRun false .closed s.log = some (if s.cs then .carrying else .closed)

theorem LinesLogged.of_same {s t : State} (h : LinesLogged s) (hcs : t.cs = s.cs) (hdc : t.dc = s.dc)
    (hlog : t.log = s.log) : LinesLogged t :=
  ⟨by rw [hcs, hlog, h.cs], by rw [hdc, hlog, h.dc], by rw [hcs, hlog, h.bracket]⟩

theorem LinesLogged.append {s t : State} {es : List Event} (h : LinesLogged s) (hlog : t.log = s.log ++ es)
    (hcs : t.cs = es.foldl csAfter s.cs) (hdc : t.dc = es.foldl dcAfter s.dc)
    (hes : bracketRun false (if s.cs then .carrying else .closed) es = some (if t.cs then .carrying else .closed)) :
    LinesLogged t where
  cs := by rw [hlog, lastCs_append, ← h.cs, hcs]
  dc := by rw [hlog, lastDc_append, ← h.dc, hdc]
  bracket := by rw [hlog, bracketRun_append, h.bracket, Option.bind_some, hes]

/-- A frame's opening and its bytes, from a closed bracket or from one that a bus fault left asserted (R106). -/
theorem bracketRun_open_bytes (cs : Bool) (m : Mode) (bs : List Byte) :
    bracketRun false (if cs then .carrying else .closed) ([.cs true, .dc m] ++ bs.map .byte) = some .carrying := by
  have hopen : bracketRun false (if cs then .carrying else .closed) [.cs true, .dc m] = some .carrying := by
    cases cs <;> rfl
  rw [bracketRun_append, hopen, Option.bind_some, bracketRun_bytes]

theorem linesLogged_afterFrame {s : State} (h : LinesLogged s) (m : Mode) (bs : List Byte) :
    LinesLogged (afterFrame m bs s) := by
  refine h.append rfl ?_ ?_ ?_
  · simp [afterFrame, csAfter]
  · simp [afterFrame, dcAfter]
  · rw [bracketRun_append, bracketRun_open_bytes]
    rfl

/-- A bus fault that leaves CS asserted leaves the bracket open; one that releases it closes the bracket (R104). -/
theorem linesLogged_afterFault {s : State} (h : LinesLogged s) (m : Mode) (bs : List Byte) (k : Nat) :
    LinesLogged (afterFault m bs k s) := by
  refine h.append rfl ?_ ?_ ?_
  · cases hc : (s.drawAt 0).csf <;> simp [afterFault, failedFrame, csAfter, -List.map_take, hc]
  · cases hc : (s.drawAt 0).csf <;> simp [afterFault, failedFrame, dcAfter, -List.map_take, hc]
  · rw [failedFrame, bracketRun_append, bracketRun_open_bytes, Option.bind_some]
    cases hc : (s.drawAt 0).csf <;> simp [afterFault, hc] <;> rfl

theorem linesLogged_delay {s : State} (h : LinesLogged s) (ms : Nat) : LinesLogged (s.delay ms) :=
  h.append rfl rfl rfl (by cases hc : s.cs <;> simp [hc] <;> rfl)

theorem linesLogged_driveRst {s : State} (h : LinesLogged s) (l : Level) : LinesLogged (s.driveRst l) :=
  h.append rfl rfl rfl (by cases hc : s.cs <;> simp [hc] <;> rfl)

theorem linesLogged_pulseRst {s : State} (h : LinesLogged s) : LinesLogged (pulseRst s) :=
  linesLogged_delay (linesLogged_driveRst (linesLogged_delay (linesLogged_driveRst h _) _) _) _

theorem exec_linesLogged {s t : State} {i : Instr} (h : LinesLogged s) (he : exec i s = .next t) : LinesLogged t := by
  refine exec_keeps (I := LinesLogged) (J := LinesLogged) ?_ (fun _ ms hs => linesLogged_delay hs ms) (fun _ => id)
    (fun _ hs _ => linesLogged_pulseRst hs) ?_ ?_ ?_ ?_ ?_ i s t h he
  · intro m bs s hs
    exact frame_sat m bs s (linesLogged_afterFrame hs m bs) fun k _ => linesLogged_afterFault hs m bs k
  · exact fun s v hs => hs.of_same rfl rfl rfl
  · exact fun s v hs => hs.of_same rfl rfl rfl
  · exact fun s v hs _ => hs.of_same rfl rfl rfl
  · exact fun s r hs => hs.of_same rfl rfl rfl
  · intro s i t hs he hd
    obtain ⟨hlog, hcs, hdc, -, -, -, -⟩ := drawing_same he hd
    exact hs.of_same hcs hdc hlog

/-! ### The invariant -/

section

variable {s t : State} (h : s.Inv)
include h

/-- The port, the draws, the request pointer, the responses and the refused mark are free of the invariant. -/
theorem State.Inv.setPort (port : List (List Byte)) : (s.setPort port).Inv := { h with }

theorem State.Inv.refuse : s.refuse.Inv := { h with }

theorem State.Inv.withDraws (draws : List BusDraw) : ({ s with draws := draws } : State).Inv := { h with }

theorem exec_keeps_inv {i : Instr} (hreq : i.isRequest = true) (he : exec i s = .next t) : t.Inv := by
  have hcfg := exec_cfg he
  obtain ⟨hwf, hrange⟩ := exec_memory_sound ⟨h.fbCanonical, h.fbInRange⟩ he
  obtain ⟨hcs, hdc, hbracket⟩ := exec_linesLogged ⟨h.csLogged, h.dcLogged, h.gated⟩ he
  have hst : t.st = s.st ∨ (s.st ≠ .faulted ∧ (t.st = .ready ∨ t.st = .uninitialized)) := by
    rcases stChangesOnlyAsTabled s t i he with hsame | ⟨hs, ⟨-, hr⟩ | ⟨-, hu⟩ | ⟨-, hu⟩⟩
    · exact .inl hsame
    · exact .inr ⟨hs, .inl hr⟩
    · exact .inr ⟨hs, .inr hu⟩
    · exact .inr ⟨hs, .inr hu⟩
  refine
    { admitted := by rw [hcfg]; exact h.admitted
      fbInitFits := by rw [hcfg]; exact h.fbInitFits
      fbCanonical := by rw [hcfg]; exact hwf
      fbInRange := by rw [hcfg]; exact hrange
      stResting := ?_
      stFaulted := ?_
      rstHigh := ?_
      winValid := ?_
      seqIdle := exec_seq hreq h.seqIdle he
      csLogged := hcs
      dcLogged := hdc
      gated := hbracket }
  · rcases hst with hsame | ⟨-, hr | hu⟩
    · rw [hsame]; exact h.stResting
    · simp [hr]
    · simp [hu]
  · rw [hcfg, ← h.stFaulted]
    rcases hst with hsame | ⟨hs, hr | hu⟩
    · rw [hsame]
    · simp [hr, hs]
    · simp [hu, hs]
  · rw [hcfg]
    rcases exec_rstMay he with hsame | ⟨hline, -, hhigh⟩
    · rw [hsame, h.rstHigh]
    · rw [hhigh, if_pos hline]
  · intro v hv
    rw [hcfg]
    rcases exec_winMay he with hsame | ⟨-, -, hfull, hvalid⟩
    · exact h.winValid v (hsame ▸ hv)
    · rw [hfull] at hv
      cases hv
      exact hvalid

theorem step_keeps_inv (hstep : step s = .next t) : t.Inv := by
  rcases step_cases hstep with ⟨-, rfl⟩ | ⟨_, port, -, rfl⟩ | ⟨_, _, _, _, -, hdec, hexec⟩
  · exact h
  · exact (h.setPort port).refuse
  · exact exec_keeps_inv (h.setPort _) (decode_isRequest hdec) hexec

end

theorem run_keeps_inv (k : Nat) {s t : State} (h : s.Inv) (hrun : Host.Core.run Sys2Proof.core k s = .next t) :
    t.Inv := by
  induction k generalizing s with
  | zero => cases hrun; exact h
  | succ k ih =>
    obtain ⟨u, hu⟩ := step_next s
    rw [run_succ k s u hu] at hrun
    exact ih (step_keeps_inv h hu) hrun

/-- Settles O51: a step waits, refuses, or runs one request, and a request keeps each clause. -/
theorem everyStepKeepsTheInvariant : Obligations.EveryStepKeepsTheInvariant :=
  fun _ _ h hstep => step_keeps_inv h hstep

/-- Settles O53, by induction on the number of steps from the power-on state. -/
theorem everyRunFromPowerOnKeepsTheInvariant : Obligations.EveryRunFromPowerOnKeepsTheInvariant :=
  fun _ port draws k _ hadm hfits hrun =>
    run_keeps_inv k (((State.ofCfg_inv hadm hfits).setPort port).withDraws draws) hrun

end Sys2Proof.Machine

/-! ## The wire log and the frame memory: who adds to them, who writes and who reads them (20_memory.md) -/

namespace Sys2Proof.Machine

/-! ### What an instruction logs (R54, R61) -/

/-- Settles O12: a refusal and an early answer log nothing, a bus fault logs a part of the full event list from its start,
and a completed instruction logs all of it. -/
theorem everyInstructionLogsItsEventsOrAPartOfThem : Obligations.EveryInstructionLogsItsEventsOrAPartOfThem := by
  intro s t i h
  cases exec_cases i s t h with
  | refused _ _ _ _ _ _ _ ht | early _ _ _ _ _ ht => rw [ht]; exact .inl rfl
  | bus hb => exact .inr (.inr ⟨hb.st, hb.resps, hb.log⟩)
  | done hc => exact .inr (.inl hc.log)

/-! ### Who writes the frame memory (R51) -/

theorem isDrawing_cases {i : Instr} (h : isDrawing i = true) :
    (∃ x y c, i = .setpx x y c) ∨ (∃ c, i = .fill c) ∨ ∃ x y w h pix, i = .blit x y w h pix := by
  match i, h with
  | .setpx x y c, _ => exact .inl ⟨x, y, c, rfl⟩
  | .fill c, _ => exact .inr (.inl ⟨c, rfl⟩)
  | .blit x y w h pix, _ => exact .inr (.inr ⟨x, y, w, h, pix, rfl⟩)

/-- A drawing request is answered without a value, stands behind the Ready gate, and leaves `st`. -/
theorem isDrawing_traits {i : Instr} (h : isDrawing i = true) (s : State) :
    i.isRequest = true ∧ isGated i = true ∧ stAfter s i = s.st ∧ valueOf s i = none := by
  rcases isDrawing_cases h with ⟨_, _, _, rfl⟩ | ⟨_, rfl⟩ | ⟨_, _, _, _, _, rfl⟩ <;> exact ⟨rfl, rfl, rfl, rfl⟩

/-- Settles O37: of the four things an instruction can do only completing writes `fb`, and only for a drawing request,
which the Ready gate has let through. -/
theorem onlyDrawingWritesTheFrameMemory : Obligations.OnlyDrawingWritesTheFrameMemory := by
  intro s t i h
  cases exec_cases i s t h with
  | refused _ _ _ _ _ _ _ ht | early _ _ _ _ _ ht => rw [ht]; exact .inl rfl
  | bus hb => exact .inl hb.fb
  | done hc =>
    rcases hc.fb with hd | hsame
    · obtain ⟨hreq, hgated, hstAfter, hvalue⟩ := isDrawing_traits hd s
      have hready : s.st = .ready := hc.gate hgated
      have hst : t.st = .ready := by rw [hc.st, hstAfter, hready]
      obtain ⟨hresps, -, -⟩ := hc.answer hreq
      rw [hst, hvalue] at hresps
      exact .inr ⟨hready, hst, hresps, isDrawing_cases hd⟩
    · exact .inl hsame

/-! ### Who sees the frame memory (R52)

The idea: each piece of a request, run with another frame memory, ends the same way but for the frame memory it leaves
(`FbBlind`). The property goes through `Res.andThen`, so a whole request has it if its pieces have. -/

/-- Where a stretch ends, with another frame memory there. -/
def Res.setFb (r : Res) (m : List Host.Cell) : Res :=
  match r with
  | .ok s => .ok (s.setFb m)
  | .raise e s => .raise e (s.setFb m)

/-- Another frame memory at the start of the stretch makes no difference but to the frame memory at its end. -/
def FbBlind (f : State → Res) : Prop := ∀ s m, ∃ m', f (s.setFb m) = (f s).setFb m'

theorem FbBlind.andThen {f g : State → Res} (hf : FbBlind f) (hg : FbBlind g) :
    FbBlind fun s => (f s).andThen g := by
  intro s m
  obtain ⟨m', hm'⟩ := hf s m
  simp only [hm']
  cases f s with
  | ok u => exact hg u m'
  | raise e u => exact ⟨m', rfl⟩

/-- A stretch may depend on the configuration. -/
theorem FbBlind.of_cfg {f : Cfg → State → Res} (h : ∀ c, FbBlind (f c)) : FbBlind fun s => f s.cfg s :=
  fun s m => h s.cfg s m

/-- A stretch that writes `st` first. -/
theorem FbBlind.after_setSt {f : State → Res} (h : FbBlind f) (v : CtrlState) : FbBlind fun s => f (s.setSt v) :=
  fun s m => h (s.setSt v) m

theorem fbBlind_ok : FbBlind .ok := fun _ m => ⟨m, rfl⟩

theorem fbBlind_setSt (v : CtrlState) : FbBlind fun s => .ok (s.setSt v) := fun _ m => ⟨m, rfl⟩

theorem fbBlind_delay (ms : Nat) : FbBlind fun s => .ok (s.delay ms) := fun _ m => ⟨m, rfl⟩

/-- What is written into the frame memory may depend on the frame memory: that is seen in the frame memory only. -/
theorem fbBlind_setFb (g : State → List Host.Cell) : FbBlind fun s => .ok (s.setFb (g s)) :=
  fun s m => ⟨g (s.setFb m), rfl⟩

theorem fbBlind_faultedGate : FbBlind faultedGate := by
  intro s m
  refine ⟨m, ?_⟩
  by_cases h : s.st = .faulted
  · rw [faultedGate_raises h, faultedGate_raises (s := s.setFb m) h]; rfl
  · rw [faultedGate_passes h, faultedGate_passes (s := s.setFb m) h]; rfl

theorem fbBlind_readyGate : FbBlind readyGate := by
  intro s m
  refine ⟨m, ?_⟩
  by_cases h : s.st = .ready
  · simp [readyGate, h, Res.setFb]
  · simp [readyGate, h, Res.setFb]

theorem fbBlind_drawGate : FbBlind drawGate := fbBlind_faultedGate.andThen fbBlind_readyGate

theorem fbBlind_boundsGate (inside : Bool) : FbBlind (boundsGate inside) := by
  cases inside <;> exact fun _ m => ⟨m, rfl⟩

/-- The draw, and not the frame memory, decides how a frame ends (40_framer.md R104, R107). -/
theorem fbBlind_frame (md : Mode) (bs : List Byte) : FbBlind (frame md bs) := by
  intro s m
  refine ⟨m, ?_⟩
  cases h : faultAt (s.drawAt 0) bs.length with
  | none => rw [frame_completes md bs s h, frame_completes md bs (s.setFb m) h]; rfl
  | some k => rw [frame_fails md bs s k h, frame_fails md bs (s.setFb m) k h]; rfl

theorem fbBlind_commandThenDelay (op : Byte) (ms : Nat) : FbBlind (commandThenDelay op ms) :=
  (fbBlind_frame .command [op]).andThen (fbBlind_delay ms)

theorem fbBlind_commandData (op : Byte) (bs : List Byte) :
    FbBlind fun s => (frame .command [op] s).andThen (frame .data bs) :=
  (fbBlind_frame .command [op]).andThen (fbBlind_frame .data bs)

theorem fbBlind_regcmd (op : Byte) (p : Option (List Byte)) : FbBlind (regcmd op p) :=
  match p with
  | none => fbBlind_frame .command [op]
  | some [] => fbBlind_frame .command [op]
  | some (b :: bs) => fbBlind_commandData op (b :: bs)

theorem fbBlind_replayTable (table : List RegCmd) : FbBlind (replayTable table) := by
  induction table with
  | nil => exact fbBlind_ok
  | cons rc rest ih => exact (fbBlind_regcmd rc.op rc.payload).andThen ih

theorem fbBlind_sendMadctl (b : Byte) : FbBlind (sendMadctl b) :=
  .of_cfg fun c => fbBlind_regcmd c.madctlOpcode (some [b])

theorem fbBlind_configurePanel : FbBlind configurePanel :=
  (FbBlind.of_cfg fun c => fbBlind_replayTable c.initTable).andThen (.of_cfg fun c => fbBlind_sendMadctl c.orient)

/-- The reset step is the pulse or the SWRESET frame, as the configuration says (41_init_sequencer.md R120). -/
theorem fbBlind_resetStep : FbBlind resetStep := by
  refine .of_cfg (f := fun c s => if c.hasRst then .ok (pulseRst s) else sendSwreset s) fun c => ?_
  cases hr : c.hasRst
  · exact fbBlind_commandThenDelay opSwreset 50
  · exact fun _ m => ⟨m, rfl⟩

theorem fbBlind_runReset : FbBlind runReset :=
  fbBlind_faultedGate.andThen ((fbBlind_resetStep.after_setSt .resetting).andThen (fbBlind_setSt .uninitialized))

theorem fbBlind_runInit : FbBlind runInit :=
  fbBlind_faultedGate.andThen <| (fbBlind_resetStep.after_setSt .resetting).andThen <|
    (fbBlind_configurePanel.after_setSt .configuring).andThen <| (fbBlind_commandThenDelay opSlpout 120).andThen <|
      (fbBlind_commandThenDelay opDispon 50).andThen (fbBlind_setSt .ready)

/-- The work of a drawing request: the gate, a bounds check, one change of the frame memory. -/
theorem fbBlind_drawing (inside : Cfg → Bool) (g : State → List Host.Cell) :
    FbBlind fun s => (drawGate s).andThen fun s => (boundsGate (inside s.cfg) s).andThen fun s => .ok (s.setFb (g s)) :=
  fbBlind_drawGate.andThen ((FbBlind.of_cfg fun c => fbBlind_boundsGate (inside c)).andThen (fbBlind_setFb g))

/-- No answer, OK or error, is made of the frame memory. -/
theorem complete_setFb (r : Res) (m : List Host.Cell) : complete (r.setFb m) = (complete r).setFb m := by
  cases r with
  | ok s => rfl
  | raise e s => cases e <;> rfl

theorem stage_setFb (r : Res) (m : List Host.Cell) : stage (r.setFb m) = (stage r).setFb m := by
  cases r with
  | ok s => rfl
  | raise e s => cases e <;> rfl

section

variable {f : State → Res} (hf : FbBlind f) (s : State) (m : List Host.Cell)
include hf

theorem FbBlind.request : ∃ m', (.next (complete (f (s.setFb m))) : Host.Outcome State Fault Refusal) =
    .next ((complete (f s)).setFb m') := by
  obtain ⟨m', hm'⟩ := hf s m
  exact ⟨m', congrArg Host.Outcome.next ((congrArg complete hm').trans (complete_setFb _ m'))⟩

theorem FbBlind.wireRow : ∃ m', (.next (stage ((faultedGate (s.setFb m)).andThen f)) :
    Host.Outcome State Fault Refusal) = .next ((stage ((faultedGate s).andThen f)).setFb m') := by
  obtain ⟨m', hm'⟩ := fbBlind_faultedGate.andThen hf s m
  exact ⟨m', congrArg Host.Outcome.next ((congrArg stage hm').trans (stage_setFb _ m'))⟩

end

/-- Every instruction but PRESENT and GETPX, run with another frame memory: the same next state, but for the frame
memory. -/
theorem exec_setFb {i : Instr} (hpresent : i ≠ .present) (hgetpx : ∀ x y, i ≠ .getpx x y) {s t : State}
    (h : exec i s = .next t) (m : List Host.Cell) : ∃ m', exec i (s.setFb m) = .next (t.setFb m') := by
  cases i with
  | present => exact absurd rfl hpresent
  | getpx x y => exact absurd rfl (hgetpx x y)
  | cmd op => cases h; exact (fbBlind_faultedGate.andThen (fbBlind_frame .command [op])).request s m
  | data payload => cases h; exact (fbBlind_faultedGate.andThen (fbBlind_frame .data payload)).request s m
  | reset => cases h; exact fbBlind_runReset.request s m
  | init => cases h; exact fbBlind_runInit.request s m
  | setpx x y c => cases h; exact (fbBlind_drawing (fun cfg => pixelInside cfg x y) _).request s m
  | fill c => cases h; exact (fbBlind_drawGate.andThen (fbBlind_setFb _)).request s m
  | blit x y w h' pix =>
    cases h
    simp only [exec, execBlit]
    split
    · exact (fbBlind_drawing (fun cfg => rectInside cfg x y w h') fun s =>
        blitRect s.cfg x.toNat y.toNat w.toNat h'.toNat pix s.fb).request s m
    · exact ⟨m, rfl⟩
  | rgb565 r g b => cases h; exact ⟨m, rfl⟩
  | swreset => cases h; exact (fbBlind_commandThenDelay opSwreset 50).wireRow s m
  | slpout => cases h; exact (fbBlind_commandThenDelay opSlpout 120).wireRow s m
  | dispon => cases h; exact (fbBlind_commandThenDelay opDispon 50).wireRow s m
  | caset cs ce => cases h; exact (fbBlind_commandData opCaset (be16 cs ++ be16 ce)).wireRow s m
  | paset rs re => cases h; exact (fbBlind_commandData opPaset (be16 rs ++ be16 re)).wireRow s m
  | ramwr burst => cases h; exact (fbBlind_commandData opRamwr burst).wireRow s m
  | madctl b => cases h; exact (fbBlind_sendMadctl b).wireRow s m

/-- Settles O39: `exec_setFb`, with the record update written out. -/
theorem onlyPresentAndGetpxSeeTheFrameMemory : Obligations.OnlyPresentAndGetpxSeeTheFrameMemory :=
  fun _ _ m _ hpresent hgetpx h => exec_setFb hpresent hgetpx h m

end Sys2Proof.Machine

/-! ## Encoding: requests and their bytes, what a step makes of them, and what it answers (30_encoding.md) -/

namespace Sys2Proof

/-! ### Taking a counted run of bytes (R70, R74) -/

@[simp] theorem takeBytes_append (bs rest : List Byte) : takeBytes bs.length (bs ++ rest) = some (bs, rest) := by
  simp [takeBytes]

theorem takeBytes_eq_some {n : Nat} {bs pre rest : List Byte} (h : takeBytes n bs = some (pre, rest)) :
    pre.length = n ∧ bs = pre ++ rest := by
  unfold takeBytes at h
  split at h
  · cases h
    exact ⟨List.length_take_of_le ‹_›, (List.take_append_drop n bs).symm⟩
  · cases h

/-! ### The two lengths that fields after the opcode give (R74) -/

theorem requestLength_data (l3 l2 l1 l0 : Byte) (more : List Byte) :
    requestLength (ReqOp.data.code :: l3 :: l2 :: l1 :: l0 :: more) = some (5 + (ofBe32 l3 l2 l1 l0).toNat) := rfl

theorem requestLength_blit (x1 x0 y1 y0 w1 w0 h1 h0 : Byte) (more : List Byte) :
    requestLength (ReqOp.blit.code :: x1 :: x0 :: y1 :: y0 :: w1 :: w0 :: h1 :: h0 :: more) =
      some (9 + 2 * (ofBe16 w1 w0).toNat * (ofBe16 h1 h0).toNat) := rfl

theorem encode_data_length (mad : Byte) (payload : List Byte) :
    (encode mad (.data payload)).length = 5 + payload.length := by
  simp only [encode, be32, List.cons_append, List.nil_append, List.length_cons]
  omega

theorem encode_blit_length (mad : Byte) (x y w h : Word16) (pix : List Byte) :
    (encode mad (.blit x y w h pix)).length = 9 + pix.length := by
  simp only [encode, be16, List.cons_append, List.nil_append, List.length_cons]
  omega

/-! ### A decoded request is an assigned opcode and its fields (R70, R73) -/

theorem decode_eq_ok_iff {bs rest : List Byte} {i : Instr} :
    decode bs = .ok i rest ↔ ∃ op fields, bs = op.code :: fields ∧ decodeFields op fields = some (i, rest) := by
  constructor
  · intro h
    unfold decode at h
    split at h
    · cases h
    · rename_i b fields
      split at h
      · cases h
      · rename_i op hop
        split at h
        · cases h
        · rename_i hf
          cases h
          exact ⟨op, fields, by rw [ReqOp.code_of_ofCode hop], hf⟩
  · rintro ⟨op, fields, rfl, hf⟩
    simp [decode, hf]

/-- The bytes of a well-formed request are an opcode and fields that read back as the request, whatever follows. -/
theorem decodeFields_encode (mad : Byte) {i : Instr} (rest : List Byte) (hreq : i.isRequest = true)
    (hwf : i.wf = true) :
    ∃ op fields, encode mad i ++ rest = op.code :: fields ∧ decodeFields op fields = some (i, rest) := by
  match i, hreq with
  | .cmd op, _ => exact ⟨.cmd, _, rfl, rfl⟩
  | .data payload, _ =>
    have hlen : (BitVec.ofNat 32 payload.length).toNat = payload.length :=
      Nat.mod_eq_of_lt (by simpa [Instr.wf, payloadFits] using hwf)
    exact ⟨.data, _, rfl, by simp [be32, decodeFields, hlen, -BitVec.toNat_ofNat]⟩
  | .reset, _ => exact ⟨.reset, _, rfl, rfl⟩
  | .init, _ => exact ⟨.init, _, rfl, rfl⟩
  | .present, _ => exact ⟨.present, _, rfl, rfl⟩
  | .setpx x y c, _ => exact ⟨.setpx, _, rfl, by simp [be16, decodeFields]⟩
  | .getpx x y, _ => exact ⟨.getpx, _, rfl, by simp [be16, decodeFields]⟩
  | .fill c, _ => exact ⟨.fill, _, rfl, by simp [be16, decodeFields]⟩
  | .blit x y w h pix, _ =>
    have hlen : pix.length = 2 * w.toNat * h.toNat := by simpa [Instr.wf, sourceFits] using hwf
    exact ⟨.blit, _, rfl, by simp [be16, decodeFields, ← hlen]⟩
  | .rgb565 r g b, _ => exact ⟨.rgb565, _, rfl, rfl⟩

/-- Settles O1, by `decodeFields_encode`, which goes row by row through R73. -/
theorem requestDecodeInvertsEncode : Obligations.RequestDecodeInvertsEncode :=
  fun mad _ rest hreq hwf => decode_eq_ok_iff.mpr (decodeFields_encode mad rest hreq hwf)

/-- What the fields of an opcode can be read as: a well-formed request whose encoding the bytes are, of the length R74
gives. -/
theorem decodeFields_inv (mad : Byte) {op : ReqOp} {fields rest : List Byte} {i : Instr}
    (h : decodeFields op fields = some (i, rest)) :
    i.wf = true ∧ op.code :: fields = encode mad i ++ rest ∧
      requestLength (op.code :: fields) = some (encode mad i).length := by
  cases op with
  | reset | init | present => cases h; exact ⟨rfl, rfl, rfl⟩
  | cmd | rgb565 =>
    simp only [decodeFields] at h
    split at h <;> cases h
    exact ⟨rfl, rfl, rfl⟩
  | setpx | getpx | fill =>
    simp only [decodeFields] at h
    split at h <;> cases h
    exact ⟨rfl, by simp [encode], rfl⟩
  | data =>
    simp only [decodeFields] at h
    split at h
    · rename_i l3 l2 l1 l0 more
      obtain ⟨⟨payload, _⟩, htake, hp⟩ := Option.map_eq_some_iff.mp h
      cases hp
      obtain ⟨hlen, rfl⟩ := takeBytes_eq_some htake
      have hcount : BitVec.ofNat 32 payload.length = ofBe32 l3 l2 l1 l0 := by
        rw [hlen, BitVec.ofNat_toNat, BitVec.setWidth_eq]
      have hfits : payload.length < 2 ^ 32 := hlen ▸ (ofBe32 l3 l2 l1 l0).isLt
      exact ⟨by simpa [Instr.wf, payloadFits] using hfits, by simp [encode, hcount],
        by rw [requestLength_data, encode_data_length, hlen]⟩
    · cases h
  | blit =>
    simp only [decodeFields] at h
    split at h
    · obtain ⟨⟨pix, _⟩, htake, hp⟩ := Option.map_eq_some_iff.mp h
      cases hp
      obtain ⟨hlen, rfl⟩ := takeBytes_eq_some htake
      exact ⟨by simpa [Instr.wf, sourceFits] using hlen, by simp [encode],
        by rw [requestLength_blit, encode_blit_length, hlen]⟩
    · cases h

/-- Settles O2, by `decodeFields_inv`, which goes opcode by opcode through R73. -/
theorem decodedBytesAreTheEncoding : Obligations.DecodedBytesAreTheEncoding := by
  intro mad bs rest i h
  have hreq := decode_isRequest h
  obtain ⟨op, fields, rfl, hfields⟩ := decode_eq_ok_iff.mp h
  exact ⟨hreq, decodeFields_inv mad hfields⟩

/-- The ten assigned `OP` values (R73). -/
theorem ReqOp.code_assigned (op : ReqOp) :
    op.code ∈ ([0x01, 0x02, 0x10, 0x11, 0x20, 0x30, 0x31, 0x32, 0x33, 0x40] : List Byte) := by
  cases op <;> decide

/-- Settles O4: the opcode gives the format, and for DATA and BLIT the big-endian fields give the count. -/
theorem requestLengths : Obligations.RequestLengths := by
  intro rest
  refine ⟨?_, rfl, rfl, rfl, rfl, rfl, fun l3 l2 l1 l0 => ?_, fun x1 x0 y1 y0 w1 w0 h1 h0 => ?_⟩
  · exact List.forall_mem_cons.mpr ⟨rfl, List.forall_mem_cons.mpr ⟨rfl, List.forall_mem_singleton.mpr rfl⟩⟩
  · rw [← ofBe32_toNat]
    exact requestLength_data l3 l2 l1 l0 rest
  · rw [← ofBe16_toNat, ← ofBe16_toNat]
    exact requestLength_blit x1 x0 y1 y0 w1 w0 h1 h0 rest

/-- Settles O5: the twelve vectors are closed byte strings. -/
theorem specWordsDecode : Obligations.SpecWordsDecode := by
  unfold Obligations.SpecWordsDecode
  decide

end Sys2Proof

namespace Sys2Proof.Machine

/-! ### One step, case by case (R70, R75) -/

section

variable {s : State} {bytes : List Byte} {port : List (List Byte)}

theorem step_waits (hport : s.port = []) : step s = .next s := by
  simp [step, fetch, hport]

theorem step_runs (hport : s.port = bytes :: port) {i : Instr} {rest : List Byte} (hdec : decode bytes = .ok i rest) :
    step s = exec i (s.setPort (keepRest rest port)) := by
  simp [step, fetch, hport, hdec]

theorem step_refuses (hport : s.port = bytes :: port) (hdec : ∀ i rest, decode bytes ≠ .ok i rest) :
    step s = .next (s.setPort port).refuse := by
  cases hd : decode bytes with
  | ok i rest => exact absurd hd (hdec i rest)
  | unassigned op => simp [step, fetch, hport, hd]
  | truncated => simp [step, fetch, hport, hd]

end

/-- Settles O6: the fetch that finds a request, and the fetch that finds none. -/
theorem stepRunsTheDecodedRequest : Obligations.StepRunsTheDecodedRequest :=
  ⟨fun _ _ _ _ _ hport hdec => step_runs hport hdec, fun _ hport => step_waits hport⟩

/-- Settles O7: a string that decodes begins with an assigned opcode, and is no shorter than its request's length, since
its request's encoding is of that length (O2). -/
theorem unassignedAndTruncatedRequestsAreRefused : Obligations.UnassignedAndTruncatedRequestsAreRefused := by
  intro s bytes port hport hbad
  refine step_refuses hport fun i rest hdec => ?_
  rcases hbad with ⟨b, more, rfl, hunassigned⟩ | htruncated
  · obtain ⟨op, fields, hbytes, -⟩ := decode_eq_ok_iff.mp hdec
    cases hbytes
    exact hunassigned op.code_assigned
  · obtain ⟨-, -, hbytes, hlen⟩ := decodedBytesAreTheEncoding 0 bytes rest i hdec
    exact htruncated ⟨_, hlen, by simp [hbytes]⟩

/-! ### The wire rows with data (R86 to R89) -/

/-- Whatever gives the row its opcode, it is a command frame and then a data frame. -/
theorem stage_commandData_ran {op : Byte} {bs : List Byte} {f : State → Res} {s : State} (hs : s.st ≠ .faulted)
    (hn : s.noBusFault 2) (hf : f s = (frame .command [op] s).andThen (frame .data bs)) :
    stage ((faultedGate s).andThen f) =
      ran s 2 (commandFrame op ++ dataFrame bs) false (some .data) (.busy (s.seq.nextFrame + 1) bs.length) := by
  rw [faultedGate_passes hs, Res.andThen_ok, hf, commandData_ran op bs hn]
  rfl

/-- Settles O18: each of the four rows is `stage_commandData_ran` of its opcode and data. -/
theorem wireCommandsWithData : Obligations.WireCommandsWithData := by
  intro s a b burst m hs hn
  simp only [List.forall_mem_cons]
  refine ⟨?caset, ?paset, ?ramwr, ?madctl, List.forall_mem_nil _⟩
  case caset => exact congrArg Host.Outcome.next (stage_commandData_ran (f := sendCaset a b) hs hn rfl)
  case paset => exact congrArg Host.Outcome.next (stage_commandData_ran (f := sendPaset a b) hs hn rfl)
  case ramwr => exact congrArg Host.Outcome.next (stage_commandData_ran (f := ramWrite burst) hs hn rfl)
  case madctl => exact congrArg Host.Outcome.next (stage_commandData_ran (f := sendMadctl m) hs hn rfl)

/-! ### Raw frames: CMD and DATA one after another (R93) -/

/-- The state after `n` requests of one frame each, all answered OK, that logged `es` and left DC at `m`. -/
def State.sent (s : State) (n : Nat) (es : List Event) (m : Mode) : State :=
  { ran s n es false (some m) .idle with rp := s.rp + n, resps := s.resps ++ List.replicate n [statusByte none s.st] }

section

variable {s : State} {n k : Nat} {es : List Event} {m : Mode}

theorem State.sent_noBusFault (h : s.noBusFault (n + k)) : (s.sent n es m).noBusFault k :=
  ran_noBusFault (es := es) (c := false) (d := some m) (q := .idle) h

theorem State.sent_sent (n' : Nat) (es' : List Event) (m' : Mode) :
    (s.sent n es m).sent n' es' m' = s.sent (n + n') (es ++ es') m' := by
  have hran := ran_ran s n n' es es' false false (some m) (some m') .idle .idle
  simp only [ran, State.dropDraws, State.mk.injEq, true_and] at hran
  simp [State.sent, ran, State.dropDraws, hran, Nat.add_assoc]
  omega

end

theorem complete_frame_sent (m : Mode) (bs : List Byte) {s : State} (hs : s.st ≠ .faulted) (hn : s.noBusFault 1) :
    complete ((faultedGate s).andThen (frame m bs)) =
      s.sent 1 ([.cs true, .dc m] ++ bs.map .byte ++ [.cs false]) m := by
  rw [faultedGate_passes hs, Res.andThen_ok, frame_ran m bs hn]
  rfl

theorem exec_cmd_sent (op : Byte) {s : State} (hs : s.st ≠ .faulted) (hn : s.noBusFault 1) :
    exec (.cmd op) s = .next (s.sent 1 (commandFrame op) .command) :=
  congrArg _ (complete_frame_sent .command [op] hs hn)

theorem exec_data_sent (payload : List Byte) {s : State} (hs : s.st ≠ .faulted) (hn : s.noBusFault 1) :
    exec (.data payload) s = .next (s.sent 1 (dataFrame payload) .data) :=
  congrArg _ (complete_frame_sent .data payload hs hn)

theorem execAll_cons {i : Instr} {s t : State} (h : exec i s = .next t) (is : List Instr) :
    execAll (i :: is) s = execAll is t := by
  simp [execAll, h]

/-- A register command as two raw requests, CMD and DATA. -/
theorem execAll_cmd_data (op : Byte) (bs : List Byte) (is : List Instr) {s : State} (hs : s.st ≠ .faulted)
    (hn : s.noBusFault 2) :
    execAll (.cmd op :: .data bs :: is) s = execAll is (s.sent 2 (commandFrame op ++ dataFrame bs) .data) := by
  have hcmd := exec_cmd_sent op hs (State.noBusFault_mono hn (by omega))
  have hdata := exec_data_sent bs (s := s.sent 1 (commandFrame op) .command) hs (State.sent_noBusFault hn)
  rw [execAll_cons hcmd, execAll_cons hdata, State.sent_sent]

/-- Settles O26: the pseudo-request is CASET's and PASET's register commands as raw requests. -/
theorem rawWindowBypassesTheDecoder : Obligations.RawWindowBypassesTheDecoder := by
  intro s cs ce rs re hs hn
  have hcaset := execAll_cmd_data 0x2A (be16 cs ++ be16 ce) [.cmd 0x2B, .data (be16 rs ++ be16 re)] hs
    (State.noBusFault_mono hn (by omega))
  have hpaset := execAll_cmd_data 0x2B (be16 rs ++ be16 re) []
    (s := s.sent 2 (commandFrame 0x2A ++ dataFrame (be16 cs ++ be16 ce)) .data) hs (State.sent_noBusFault hn)
  rw [pseudoWindow, hcaset, hpaset, State.sent_sent]
  simp [execAll, State.sent, ran]

/-! ### Responses (R80) -/

/-- The three fields of a status byte. -/
theorem statusByte_fields (e : Option Err) (st : CtrlState) :
    (statusByte e st).extractLsb' 4 4 = errCode e ∧ (statusByte e st).extractLsb' 3 1 = 0 ∧
      (statusByte e st).extractLsb' 0 3 = st.code := by
  have hfields : ∀ (err : BitVec 4) (stc : BitVec 3), (err ++ (0 : BitVec 1) ++ stc).extractLsb' 4 4 = err ∧
      (err ++ (0 : BitVec 1) ++ stc).extractLsb' 3 1 = 0 ∧ (err ++ (0 : BitVec 1) ++ stc).extractLsb' 0 3 = stc := by
    decide
  exact hfields (errCode e) st.code

/-- There are four error kinds (60_exceptions.md R200). -/
theorem errCode_le (e : Option Err) : (errCode e).toNat ≤ 4 := by
  rcases e with _ | (_ | _ | _ | _) <;> decide

theorem errCode_eq_zero_iff (e : Option Err) : errCode e = 0 ↔ e = none := by
  rcases e with _ | (_ | _ | _ | _) <;> decide

/-- A response is the status byte and then the two bytes of its value, if it has one. -/
theorem responseBytes_eq (e : Option Err) (st : CtrlState) (v : Option Word16) :
    responseBytes e st v = statusByte e st :: v.elim [] be16 := by
  cases v <;> rfl

theorem value_bytes_length (v : Option Word16) :
    if v.isSome = true then (v.elim [] be16).length = 2 else v.elim [] be16 = [] := by
  cases v <;> rfl

/-- GETPX and RGB565 are the requests with a value. -/
theorem valueOf_isSome_iff (s : State) (i : Instr) :
    (valueOf s i).isSome = true ↔ (∃ x y, i = .getpx x y) ∨ ∃ r g b, i = .rgb565 r g b := by
  cases i with
  | getpx x y => exact ⟨fun _ => .inl ⟨x, y, rfl⟩, fun _ => rfl⟩
  | rgb565 r g b => exact ⟨fun _ => .inr ⟨r, g, b, rfl⟩, fun _ => rfl⟩
  | _ => simp [valueOf]

/-- What a well-formed request answers: the error it met, `st` as it left it, and a value only without an error. -/
theorem exec_resps {s t : State} {i : Instr} (hreq : i.isRequest = true) (hwf : i.wf = true) (h : exec i s = .next t) :
    ∃ e, t.resps = s.resps ++ [responseBytes e t.st (if e = none then valueOf s i else none)] := by
  cases exec_cases i s t h with
  | refused x y w h pix hi hlen =>
    subst hi
    exact absurd (by simpa [Instr.wf, sourceFits] using hwf) hlen
  | early e _ _ _ _ ht => exact ⟨some e, by rw [ht]; rfl⟩
  | bus hb => exact ⟨some .busTransfer, by rw [hb.resps, hb.st]; rfl⟩
  | done hc =>
    obtain ⟨hresps, -, -⟩ := hc.answer hreq
    exact ⟨none, hresps⟩

/-- Settles O44: `exec_resps`, with the fields of the status byte read off. -/
theorem everyResponseHasItsForm : Obligations.EveryResponseHasItsForm := by
  intro s t i hreq hwf h
  obtain ⟨e, hresps⟩ := exec_resps hreq hwf h
  obtain ⟨herr, hbit3, hst⟩ := statusByte_fields e t.st
  rw [responseBytes_eq] at hresps
  refine ⟨_, _, hresps, herr ▸ errCode_le e, hbit3, hst, ?_⟩
  simp only [herr, errCode_eq_zero_iff, ← valueOf_isSome_iff s]
  by_cases he : e = none
  · simpa [he] using value_bytes_length (valueOf s i)
  · simp [he]

/-! ### PRESENT (R88, R89) -/

theorem fullWindow_valid {c : Cfg} (h : c.admitted = true) : (fullWindow c).valid c = true := by
  obtain ⟨hw, -, hh, -⟩ := c.admitted_iff.mp h
  have hw' : (c.w - 1).toNat < c.w.toNat := by bv_omega
  have hh' : (c.h - 1).toNat < c.h.toNat := by bv_omega
  simp only [Window.valid, Bool.and_eq_true, decide_eq_true_eq]
  exact ⟨⟨⟨Nat.zero_le _, hw'⟩, Nat.zero_le _⟩, hh'⟩

/-- Setting a valid window with no bus fault: CASET and PASET with its values. -/
theorem setWindow_ran {v : Window} {s : State} (hv : v.valid s.cfg = true) (hn : s.noBusFault 4) :
    setWindow v s = .ok (ran (s.setWin v) 4 ((commandFrame opCaset ++ dataFrame (be16 v.colStart ++ be16 v.colEnd)) ++
      (commandFrame opPaset ++ dataFrame (be16 v.rowStart ++ be16 v.rowEnd))) false (some .data)
      (.busy (s.seq.nextFrame + 3) 4)) := by
  have hcaset : (s.setWin v).noBusFault 2 := State.noBusFault_mono hn (by omega)
  rw [setWindow, boundsGate, if_pos hv, Res.andThen_ok, sendCaset, commandData_ran _ _ hcaset, Res.andThen_ok,
    sendPaset, commandData_ran _ _ (ran_noBusFault (n := 2) (s := s.setWin v) hn), ran_ran]
  rfl

/-- The event list of R144 in the names of the rows that PRESENT runs. -/
theorem presentEvents_eq (c : Cfg) (burst : List Byte) : presentEvents c burst =
    (commandFrame opCaset ++ dataFrame (be16 (fullWindow c).colStart ++ be16 (fullWindow c).colEnd)) ++
      (commandFrame opPaset ++ dataFrame (be16 (fullWindow c).rowStart ++ be16 (fullWindow c).rowEnd)) ++
      (commandFrame opRamwr ++ dataFrame burst) := by
  have hzero : be16 0 = [0x00, 0x00] := by decide
  simp only [presentEvents, fullWindow, hzero, opCaset, opPaset, opRamwr]

/-- PRESENT in Ready with no bus fault: the window, then the burst, in six frames. -/
theorem runPresent_ran {s : State} (hadm : s.cfg.admitted = true) (hr : s.st = .ready) (hn : s.noBusFault 6) :
    runPresent s = .ok (ran (s.setWin (fullWindow s.cfg)) 6 (presentEvents s.cfg s.frameBytes) false (some .data)
      (.busy (s.seq.nextFrame + 5) s.frameBytes.length)) := by
  rw [runPresent, drawGate_ready hr, Res.andThen_ok,
    setWindow_ran (fullWindow_valid hadm) (State.noBusFault_mono hn (by omega)), Res.andThen_ok, ramWrite,
    commandData_ran _ _ (ran_noBusFault (n := 4) (s := s.setWin (fullWindow s.cfg)) hn), ran_ran,
    presentEvents_eq]
  rfl

theorem memRead_length (c : Cfg) (m : List Host.Cell) (a n : Nat) : (memRead c m a n).length = n := by
  simp [memRead]

/-- Settles O22: `runPresent_ran` at `W = 240` and `H = 320`. -/
theorem presentOnThe240By320Panel : Obligations.PresentOnThe240By320Panel := by
  intro s hw hh hadm hr hn
  refine ⟨_, s.frameBytes, rfl, ?_, ?_⟩
  · rw [State.frameBytes, memRead_length, Cfg.nFb, hw, hh]
    rfl
  · have hcaset : be16 (s.cfg.w - 1) = [0x00, 0xEF] := by rw [hw]; decide
    have hpaset : be16 (s.cfg.h - 1) = [0x01, 0x3F] := by rw [hh]; decide
    rw [runPresent_ran hadm hr hn]
    show s.log ++ presentEvents s.cfg s.frameBytes = _
    rw [presentEvents, hcaset, hpaset]
    simp only [List.append_assoc, List.cons_append, List.nil_append]

/-! ### A BLIT whose source does not fit (R76) -/

/-- Settles O33: the length of the source is the first thing a BLIT checks. -/
theorem blitOfAnotherLengthIsRefused : Obligations.BlitOfAnotherLengthIsRefused := by
  intro s x y w h pix hlen
  have hfits : ¬ blitSourceFits w h pix = true := by simpa [blitSourceFits] using hlen
  exact congrArg Host.Outcome.next (if_neg hfits)

end Sys2Proof.Machine

/-! ## The framer: CMD and DATA, the bracket discipline, and the frame that fails (40_framer.md) -/

namespace Sys2Proof.Machine

/-! ### A request of one frame: CMD and DATA (R101, R102) -/

/-- A request that opens with the Faulted gate, in Faulted: ConfigurationError and nothing else (60_exceptions.md
R201). -/
theorem complete_faultedGate_of_faulted {s : State} (hs : s.st = .faulted) (f : State → Res) :
    complete ((faultedGate s).andThen f) = s.answered [0x14] := by
  rw [faultedGate_raises hs, Res.andThen_raise, complete, takeError_early (by decide), hs]
  rfl

section

variable {s : State} (hs : s.st ≠ .faulted) (m : Mode) (bs : List Byte)
include hs

theorem complete_frame_of_no_fault (hdraw : ∀ k, (s.drawAt 0).bf = some k → bs.length < k) :
    complete ((faultedGate s).andThen (frame m bs)) = (afterFrame m bs s).answered [statusByte none s.st] := by
  rw [faultedGate_passes hs, Res.andThen_ok, frame_completes m bs s (faultAt_none_of_beyond hdraw)]
  rfl

theorem complete_frame_of_fault {k : Nat} (hdraw : (s.drawAt 0).bf = some k) (hk : k ≤ bs.length) :
    complete ((faultedGate s).andThen (frame m bs)) =
      State.answered { afterFault m bs k s with st := .uninitialized } [0x40] := by
  rw [faultedGate_passes hs, Res.andThen_ok, frame_fails m bs s k (faultAt_some_of_bf hdraw hk)]
  exact takeError_bus _

end

/-- Settles O10: CMD is the request of one command frame of one byte. -/
theorem cmdSendsOneCommandFrame : Obligations.CmdSendsOneCommandFrame := fun _ op =>
  ⟨fun hs => congrArg Host.Outcome.next (complete_faultedGate_of_faulted hs _),
    fun hs hdraw => congrArg Host.Outcome.next (complete_frame_of_no_fault hs .command [op] hdraw),
    fun hs _ hdraw hk => congrArg Host.Outcome.next (complete_frame_of_fault hs .command [op] hdraw hk)⟩

/-- Settles O11: DATA is the request of one data frame of its whole payload. -/
theorem dataSendsOneBurst : Obligations.DataSendsOneBurst := fun _ payload =>
  ⟨fun hs => congrArg Host.Outcome.next (complete_faultedGate_of_faulted hs _),
    fun hs hdraw => congrArg Host.Outcome.next (complete_frame_of_no_fault hs .data payload hdraw),
    fun hs _ hdraw hk => congrArg Host.Outcome.next (complete_frame_of_fault hs .data payload hdraw hk)⟩

/-! ### The bracket discipline (R105) -/

/-- Every byte of the log lies in a bracket, after its one `DC`, and every bracket is closed before the next opens. -/
def Bracketed (s : State) : Prop := bracketRun true .closed s.log = some .closed

theorem Bracketed.append {s t : State} {es : List Event} (h : Bracketed s) (hlog : t.log = s.log ++ es)
    (hes : bracketRun true .closed es = some .closed) : Bracketed t := by
  rw [Bracketed, hlog, bracketRun_append, h, Option.bind_some, hes]

theorem bracketed_afterFrame {s : State} (h : Bracketed s) (m : Mode) (bs : List Byte) :
    Bracketed (afterFrame m bs s) :=
  h.append (es := frameEvents m bs) rfl (by rw [bracketRun_frameEvents, if_pos rfl])

/-- A bus fault that releases CS leaves the bracket of a shorter frame (R104). -/
theorem bracketed_afterFault {s : State} (h : Bracketed s) (m : Mode) (bs : List Byte) (k : Nat)
    (hcs : (afterFault m bs k s).cs = false) : Bracketed (afterFault m bs k s) := by
  have hcsf : (s.drawAt 0).csf = false := hcs
  have hlog : (afterFault m bs k s).log = s.log ++ frameEvents m (bs.take k) := by
    rw [afterFault, hcsf]
    rfl
  exact h.append hlog (by rw [bracketRun_frameEvents, if_pos rfl])

theorem exec_bracketed {s t : State} {i : Instr} (h : Bracketed s) (he : exec i s = .next t) (hcs : t.cs = false) :
    Bracketed t := by
  refine exec_keeps (I := Bracketed) (J := fun u => u.cs = false → Bracketed u) ?frame
    (fun u ms hu => hu.append (t := u.delay ms) rfl rfl) (fun _ hu _ => hu) ?pulse (fun _ _ => id) (fun _ _ => id)
    (fun _ _ hu _ => hu) (fun _ _ => id) ?drawing i s t h he hcs
  case frame =>
    exact fun m bs u hu => frame_sat m bs u (bracketed_afterFrame hu m bs) fun k _ => bracketed_afterFault hu m bs k
  case pulse =>
    exact fun u hu _ => hu.append (es := [.rst .low, .delay 50, .rst .high, .delay 50])
      (by simp [pulseRst]) rfl
  case drawing =>
    intro u i v hu hv hd _
    obtain ⟨hlog, -⟩ := drawing_same hv hd
    rwa [Bracketed, hlog]

/-- Settles O13: every frame, wait and reset pulse keeps the discipline, and so does a fault that releases CS. -/
theorem bracketsNeverNestNorOverlap : Obligations.BracketsNeverNestNorOverlap :=
  fun _ _ _ he h hcs => exec_bracketed h he hcs

/-! ### The frame that fails ends its request (R104; 60_exceptions.md R204, R206, R207) -/

/-- The state from which an instruction sends its frames: INIT has pulsed the reset line, if there is one
(41_init_sequencer.md R120), and PRESENT has loaded the window (42_window_present.md R141). -/
def framesFrom (s : State) (i : Instr) : State :=
  { s with
    rst := if i = .init ∧ s.cfg.hasRst = true then some .high else s.rst
    win := if i = .present then some (fullWindow s.cfg) else s.win }

/-- An instruction is one stretch `r` of frames, answered or run as a stage of a request. -/
def RunsFrames (s : State) (i : Instr) (r : Res) : Prop :=
  (exec i s = .next (complete r) ∨ exec i s = .next (stage r)) ∧ Breaks (framesFrom s i) (fullEvents s i) r

/-- A request that opens with the Faulted gate and is one stretch of frames from there. -/
theorem RunsFrames.request {s : State} {i : Instr} {f : State → Res} (hs : s.st ≠ .faulted)
    (hexec : exec i s = .next (complete ((faultedGate s).andThen f)))
    (hf : Breaks (framesFrom s i) (fullEvents s i) (f s)) : RunsFrames s i (f s) :=
  ⟨.inl (by rw [hexec, faultedGate_passes hs, Res.andThen_ok]), hf⟩

theorem RunsFrames.wireRow {s : State} {i : Instr} {f : State → Res} (hs : s.st ≠ .faulted)
    (hexec : exec i s = .next (stage ((faultedGate s).andThen f)))
    (hf : Breaks (framesFrom s i) (fullEvents s i) (f s)) : RunsFrames s i (f s) :=
  ⟨.inr (by rw [hexec, faultedGate_passes hs, Res.andThen_ok]), hf⟩

/-- RESET after its gate, on a block without a reset line: with one it sends no frame. -/
theorem breaks_reset {s : State} (hline : s.cfg.hasRst = false) :
    Breaks s (resetEvents s.cfg)
      ((resetStep (s.setSt .resetting)).andThen fun u => .ok (u.setSt .uninitialized)) := by
  have hstep := breaks_resetStep (s.setSt .resetting)
  rw [State.setSt_cfg, if_neg (by simp [hline])] at hstep
  rw [← List.append_nil (resetEvents s.cfg)]
  exact hstep.of_setSt.andThen fun _ _ _ _ => breaks_setSt _ _

/-- INIT after its gate. -/
theorem breaks_init (s : State) :
    Breaks (framesFrom s .init) (initEvents s.cfg)
      ((resetStep (s.setSt .resetting)).andThen fun u =>
        (configurePanel (u.setSt .configuring)).andThen fun u =>
        (sendSlpout u).andThen fun u => (sendDispon u).andThen fun u => .ok (u.setSt .ready)) := by
  have hstep : Breaks (framesFrom s .init) (resetEvents s.cfg) (resetStep (s.setSt .resetting)) := by
    refine Breaks.of_setSt (v := .resetting) ?_
    have hfrom : (framesFrom s .init).setSt .resetting =
        if s.cfg.hasRst then { s.setSt .resetting with rst := some .high } else s.setSt .resetting := by
      cases hline : s.cfg.hasRst <;> simp [framesFrom, State.setSt, hline]
    rw [hfrom]
    exact breaks_resetStep (s.setSt .resetting)
  have hevents : initEvents s.cfg = resetEvents s.cfg ++ ((s.cfg.initTable.flatMap regcmdEvents
      ++ (commandFrame s.cfg.madctlOpcode ++ dataFrame [s.cfg.orient]))
      ++ ((commandFrame opSlpout ++ [.delay 120]) ++ ((commandFrame opDispon ++ [.delay 50]) ++ []))) := by
    simp only [initEvents, opSlpout, opDispon, List.append_assoc, List.append_nil]
  rw [hevents]
  exact hstep.andThen fun _ _ _ _ => (breaks_configurePanel _).of_setSt.andThen fun _ _ _ _ =>
    (breaks_commandThenDelay opSlpout 120 _).andThen fun _ _ _ _ =>
    (breaks_commandThenDelay opDispon 50 _).andThen fun _ _ _ _ => breaks_setSt _ .ready

/-- PRESENT in Ready, from the window it loads. -/
theorem breaks_present {s : State} (hr : s.st = .ready) (hadm : s.cfg.admitted = true) :
    Breaks (framesFrom s .present) (presentEvents s.cfg s.frameBytes) (runPresent s) := by
  rw [runPresent, drawGate_ready hr, Res.andThen_ok, setWindow, boundsGate, if_pos (fullWindow_valid hadm),
    Res.andThen_ok, presentEvents_eq]
  exact ((breaks_commandData opCaset _ (s.setWin (fullWindow s.cfg))).andThen fun _ _ _ _ =>
    breaks_commandData opPaset _ _).andThen fun _ _ _ _ => breaks_commandData opRamwr _ _

/-- Every instruction whose full event list holds a frame is one stretch that breaks where a draw fails it. -/
theorem exec_runsFrames {s : State} {i : Instr} (hs : s.st ≠ .faulted)
    (hpresent : i = .present → s.st = .ready ∧ s.cfg.admitted = true) (hframe : Event.cs true ∈ fullEvents s i) :
    ∃ r, RunsFrames s i r := by
  cases i with
  | cmd op => exact ⟨_, .request hs rfl (breaks_frame .command [op] s)⟩
  | data payload => exact ⟨_, .request hs rfl (breaks_frame .data payload s)⟩
  | reset =>
    have hline : s.cfg.hasRst = false := by
      cases hline : s.cfg.hasRst
      · rfl
      · simp [fullEvents, resetEvents, hline] at hframe
    exact ⟨_, .request hs rfl (breaks_reset hline)⟩
  | init => exact ⟨_, .request hs rfl (breaks_init s)⟩
  | present =>
    obtain ⟨hr, hadm⟩ := hpresent rfl
    exact ⟨_, .inl rfl, breaks_present hr hadm⟩
  | swreset => exact ⟨_, .wireRow hs rfl (breaks_commandThenDelay opSwreset 50 s)⟩
  | slpout => exact ⟨_, .wireRow hs rfl (breaks_commandThenDelay opSlpout 120 s)⟩
  | dispon => exact ⟨_, .wireRow hs rfl (breaks_commandThenDelay opDispon 50 s)⟩
  | caset cs ce => exact ⟨_, .wireRow hs rfl (breaks_commandData opCaset (be16 cs ++ be16 ce) s)⟩
  | paset rs re => exact ⟨_, .wireRow hs rfl (breaks_commandData opPaset (be16 rs ++ be16 re) s)⟩
  | ramwr burst => exact ⟨_, .wireRow hs rfl (breaks_commandData opRamwr burst s)⟩
  | madctl b => exact ⟨_, .wireRow hs rfl (breaks_commandData s.cfg.madctlOpcode [b] s)⟩
  | setpx | getpx | fill | blit | rgb565 => cases hframe

/-- Settles O54: the instruction's stretch of frames breaks at the failing frame, and taking that bus fault is the end
of the request or of the wire row. -/
theorem aFailedFrameEndsTheRequest : Obligations.AFailedFrameEndsTheRequest := by
  intro s i before m bs k csf hs hpresent hstands hquiet hdraw hk
  obtain ⟨r, hexec, hbreaks⟩ := exec_runsFrames hs hpresent (hstands.subset (by simp))
  obtain ⟨q, v, rfl⟩ := hbreaks.breaks before m bs k csf hstands hquiet hdraw hk
  have hend := takeError_broke (framesFrom s i) before m bs k csf q v
  rcases hexec with hexec | hexec <;> exact hexec.trans (congrArg Host.Outcome.next hend)

end Sys2Proof.Machine

/-! ## The reset and init sequencer: RESET, INIT and the wire commands with a wait (41_init_sequencer.md) -/

namespace Sys2Proof.Machine

/-! ### A command frame and the wait after it (R120, R122) -/

/-- Whatever gives the row its opcode and wait, it is a command frame and then the wait. -/
theorem stage_commandThenDelay_ran {op : Byte} {ms : Nat} {f : State → Res} {s : State} (hs : s.st ≠ .faulted)
    (hn : s.noBusFault 1) (hf : f s = commandThenDelay op ms s) :
    stage ((faultedGate s).andThen f) =
      ran s 1 (commandFrame op ++ [.delay ms]) false (some .command) (.busy s.seq.nextFrame 1) := by
  rw [faultedGate_passes hs, Res.andThen_ok, hf, commandThenDelay_ran op ms hn]
  rfl

/-- Settles O17: each of the three rows is `stage_commandThenDelay_ran` of its opcode and wait. -/
theorem wireCommandsWithAWait : Obligations.WireCommandsWithAWait := by
  intro s hs hn
  simp only [List.forall_mem_cons]
  refine ⟨?swreset, ?slpout, ?dispon, List.forall_mem_nil _⟩
  case swreset => exact congrArg Host.Outcome.next (stage_commandThenDelay_ran (f := sendSwreset) hs hn rfl)
  case slpout => exact congrArg Host.Outcome.next (stage_commandThenDelay_ran (f := sendSlpout) hs hn rfl)
  case dispon => exact congrArg Host.Outcome.next (stage_commandThenDelay_ran (f := sendDispon) hs hn rfl)

section

variable (op : Byte) (ms : Nat) {s : State}

/-- The general form of `commandThenDelay_ran`: a draw beyond the frame's one byte fails nothing either (log 3). -/
theorem commandThenDelay_of_no_fault (hdraw : ∀ k, (s.drawAt 0).bf = some k → 1 < k) :
    commandThenDelay op ms s = .ok (ran s 1 (commandFrame op ++ [.delay ms]) false (some .command)
      (.busy s.seq.nextFrame 1)) := by
  rw [commandThenDelay, frame_completes .command [op] s (faultAt_none_of_beyond hdraw), Res.andThen_ok]
  exact congrArg Res.ok (ran_delay ..)

/-- A bus fault in the frame leaves out the wait. -/
theorem commandThenDelay_of_fault {k : Nat} (hdraw : (s.drawAt 0).bf = some k) (hk : k ≤ 1) :
    commandThenDelay op ms s = .raise .busTransfer (afterFault .command [op] k s) := by
  rw [commandThenDelay, frame_fails .command [op] s k (faultAt_some_of_bf hdraw hk), Res.andThen_raise]

end

/-! ### RESET (R120, R121) -/

/-- The pulse drives the reset line, which it leaves High, and waits; it sends no frame. -/
theorem pulseRst_eq (s : State) : pulseRst s =
    { s with rst := some .high, log := s.log ++ [.rst .low, .delay 50, .rst .high, .delay 50] } := by
  simp [pulseRst, State.driveRst, State.delay, State.emit]

/-- The answer to a request without a value that ran to its end (30_encoding.md R80, R81). -/
theorem complete_ok (s : State) : complete (.ok s) = s.answered [statusByte none s.st] := rfl

section

variable {s : State}

theorem resetStep_of_line (hline : s.cfg.hasRst = true) : resetStep s = .ok (pulseRst s) := if_pos hline

theorem resetStep_of_no_line (hline : s.cfg.hasRst = false) : resetStep s = commandThenDelay opSwreset 50 s :=
  if_neg (by simp [hline])

/-- RESET past its gate, where its reset step completes. -/
theorem complete_runReset_of_ok {u : State} (hs : s.st ≠ .faulted) (hstep : resetStep (s.setSt .resetting) = .ok u) :
    complete (runReset s) = (u.setSt .uninitialized).answered [0x00] := by
  have hstatus : statusByte none .uninitialized = 0x00 := by decide
  rw [runReset, faultedGate_passes hs, Res.andThen_ok, hstep, Res.andThen_ok, complete_ok, State.setSt_st, hstatus]

/-- RESET past its gate, where a bus fault ends its reset step. -/
theorem complete_runReset_of_fault {u : State} (hs : s.st ≠ .faulted)
    (hstep : resetStep (s.setSt .resetting) = .raise .busTransfer u) :
    complete (runReset s) = (u.setSt .uninitialized).answered [0x40] := by
  rw [runReset, faultedGate_passes hs, Res.andThen_ok, hstep]
  exact takeError_bus u

end

/-- Settles O15: the Faulted gate, the pulse, and the SWRESET frame that completes or fails. -/
theorem resetRunsTheResetStep : Obligations.ResetRunsTheResetStep := by
  intro s
  refine ⟨fun hs => ?faulted, fun hs hline => ?pulse, fun hs hline hdraw => ?sent, fun hs hline k hdraw hk => ?failed⟩
    <;> refine congrArg Host.Outcome.next ?_
  case faulted => exact complete_faultedGate_of_faulted hs _
  case pulse =>
    rw [complete_runReset_of_ok hs (resetStep_of_line hline), pulseRst_eq]
    rfl
  case sent =>
    have hstep := (resetStep_of_no_line (s := s.setSt .resetting) hline).trans
      (commandThenDelay_of_no_fault opSwreset 50 hdraw)
    rw [complete_runReset_of_ok hs hstep]
    rfl
  case failed =>
    have hstep := (resetStep_of_no_line (s := s.setSt .resetting) hline).trans
      (commandThenDelay_of_fault opSwreset 50 hdraw hk)
    rw [complete_runReset_of_fault hs hstep]
    rfl

/-! ### INIT (R122, R126) -/

/-- The state INIT's frames run from: past its reset step the reset line, if there is one, is High (R120). -/
def initFrom (s : State) (v : CtrlState) : State :=
  { s with st := v, rst := if s.cfg.hasRst then some .high else s.rst }

theorem ran_initFrom_setSt (v v' : CtrlState) (n : Nat) (es : List Event) (c : Bool) (d : Option Mode) (q : SeqPos) :
    (ran (initFrom s v) n es c d q).setSt v' = ran (initFrom s v') n es c d q := rfl

/-- The event list of R126 in the names of the rows that INIT runs: the reset step's events, and those after it. -/
theorem initEvents_eq (c : Cfg) : initEvents c = resetEvents c ++
    ((c.initTable.flatMap regcmdEvents ++ (commandFrame c.madctlOpcode ++ dataFrame [c.orient]))
      ++ (commandFrame opSlpout ++ [.delay 120]) ++ (commandFrame opDispon ++ [.delay 50])) := by
  simp only [initEvents, opSlpout, opDispon, List.append_assoc]

section

variable {s : State}

/-- The configuring phase with no bus fault: the table, then MADCTL's two frames. -/
theorem configurePanel_ran (hn : s.noBusFault ((s.cfg.initTable.map regcmdFrames).sum + 2)) :
    ∃ q, configurePanel s = .ok (ran s ((s.cfg.initTable.map regcmdFrames).sum + 2)
      (s.cfg.initTable.flatMap regcmdEvents ++ (commandFrame s.cfg.madctlOpcode ++ dataFrame [s.cfg.orient]))
      false (some .data) q) := by
  obtain ⟨c, d, q, htable⟩ := replayTable_ran s.cfg.initTable (State.noBusFault_mono hn (by omega))
  refine ⟨.busy (q.nextFrame + 1) 1, ?_⟩
  rw [configurePanel, htable, Res.andThen_ok]
  exact (commandData_ran _ _ (ran_noBusFault hn)).trans (congrArg Res.ok (ran_ran ..))

/-- INIT after its reset step with no bus fault: the configuring phase, sleep-out and display-on. -/
theorem afterReset_ran (hn : s.noBusFault ((s.cfg.initTable.map regcmdFrames).sum + 2 + 2)) :
    ∃ q, ((configurePanel s).andThen sendSlpout).andThen sendDispon =
      .ok (ran s ((s.cfg.initTable.map regcmdFrames).sum + 2 + 2)
        ((s.cfg.initTable.flatMap regcmdEvents ++ (commandFrame s.cfg.madctlOpcode ++ dataFrame [s.cfg.orient]))
          ++ (commandFrame opSlpout ++ [.delay 120]) ++ (commandFrame opDispon ++ [.delay 50]))
        false (some .command) q) := by
  obtain ⟨q, hpanel⟩ := configurePanel_ran (State.noBusFault_mono hn (by omega))
  refine ⟨.busy (q.nextFrame + 1) 1, ?_⟩
  rw [hpanel, Res.andThen_ok, sendSlpout,
    commandThenDelay_ran _ _ (ran_noBusFault (State.noBusFault_mono hn (by omega))), ran_ran, Res.andThen_ok, sendDispon,
    commandThenDelay_ran _ _ (ran_noBusFault hn), ran_ran]
  rfl

theorem resetStep_setSt_ran (v : CtrlState) (hn : s.noBusFault (resetFrames s.cfg)) :
    ∃ c d q, resetStep (s.setSt v) = .ok (ran (initFrom s v) (resetFrames s.cfg) (resetEvents s.cfg) c d q) := by
  obtain ⟨c, d, q, hstep⟩ := resetStep_ran (s := s.setSt v) hn
  refine ⟨c, d, q, hstep.trans ?_⟩
  cases hline : s.cfg.hasRst <;> simp [initFrom, State.setSt, hline]

/-- INIT past its gate with no bus fault: the reset step and what follows it, end to end. -/
theorem runInit_ran (hs : s.st ≠ .faulted) (hn : s.noBusFault (initFrames s.cfg)) :
    ∃ q, runInit s = .ok (ran (initFrom s .ready) (initFrames s.cfg) (initEvents s.cfg) false (some .command) q) := by
  have hn' : s.noBusFault (resetFrames s.cfg + ((s.cfg.initTable.map regcmdFrames).sum + 2 + 2)) := hn
  obtain ⟨c, d, q, hreset⟩ := resetStep_setSt_ran .resetting (State.noBusFault_mono hn' (by omega))
  obtain ⟨q', hafter⟩ := afterReset_ran
    (s := ran (initFrom s .configuring) (resetFrames s.cfg) (resetEvents s.cfg) c d q)
    (ran_noBusFault (s := initFrom s .configuring) hn')
  refine ⟨q', ?_⟩
  rw [runInit, faultedGate_passes hs, Res.andThen_ok, hreset, Res.andThen_ok, ran_initFrom_setSt]
  simp only [← andThen_assoc]
  rw [hafter, Res.andThen_ok, ran_ran, ran_initFrom_setSt, initEvents_eq]
  rfl

end

/-- Settles O16: the Faulted gate, and the answer to `runInit_ran`. -/
theorem initReplaysTheTableAndEndsReady : Obligations.InitReplaysTheTableAndEndsReady := by
  refine fun s => ⟨fun hs => congrArg Host.Outcome.next (complete_faultedGate_of_faulted hs _), fun hs hn => ?_⟩
  obtain ⟨q, hrun⟩ := runInit_ran hs hn
  have hstatus : statusByte none .ready = 0x03 := by decide
  refine congrArg Host.Outcome.next ?_
  rw [hrun, complete_ok]
  exact congrArg (State.answered _ [·]) hstatus

end Sys2Proof.Machine

/-! ## The window decoder and the write sequencer: PRESENT (42_window_present.md) -/

namespace Sys2Proof.Machine

/-! ### The shared gate of PRESENT and the drawing requests (R143) -/

/-- A request that opens with the Ready gate, in Faulted: ConfigurationError and nothing else (60_exceptions.md
R201). -/
theorem complete_drawGate_of_faulted {s : State} (hs : s.st = .faulted) (f : State → Res) :
    complete ((drawGate s).andThen f) = s.answered [0x14] := by
  rw [drawGate_faulted hs, Res.andThen_raise, complete, takeError_early (by decide), hs]
  rfl

/-- A request that opens with the Ready gate, neither Faulted nor Ready: InitializationError and nothing else
(60_exceptions.md R202). -/
theorem complete_drawGate_of_not_ready {s : State} (hs : s.st ≠ .faulted) (hr : s.st ≠ .ready) (f : State → Res) :
    complete ((drawGate s).andThen f) = s.answered [statusByte (some .initialization) s.st] := by
  rw [drawGate_notReady hs hr]
  exact takeError_early (by decide)

/-! ### What a PRESENT sends (R144) -/

theorem commandFrame_length (op : Byte) : (commandFrame op).length = 4 := rfl

/-- A data frame is CS, DC, the bytes, and CS. -/
theorem dataFrame_length (bs : List Byte) : (dataFrame bs).length = 3 + bs.length := by
  simp only [dataFrame, List.length_append, List.length_map, List.length_cons, List.length_nil]
  omega

/-- Three command frames, two data frames of four bytes, and the burst's frame. -/
theorem presentEvents_length (c : Cfg) (burst : List Byte) : (presentEvents c burst).length = 29 + burst.length := by
  simp only [presentEvents_eq, List.length_append, commandFrame_length, dataFrame_length, be16_length]
  omega

theorem frameBytes_length (s : State) : s.frameBytes.length = s.cfg.nFb := memRead_length ..

/-- PRESENT in Ready with no bus fault: the answer to `runPresent_ran`. -/
theorem exec_present_ran {s : State} (hadm : s.cfg.admitted = true) (hr : s.st = .ready) (hn : s.noBusFault 6) :
    exec .present s = .next ((ran (s.setWin (fullWindow s.cfg)) 6 (presentEvents s.cfg s.frameBytes) false (some .data)
      (.busy (s.seq.nextFrame + 5) s.frameBytes.length)).answered [0x03]) := by
  have hstatus : statusByte none s.st = 0x03 := by rw [hr]; decide
  refine congrArg Host.Outcome.next ?_
  rw [runPresent_ran hadm hr hn, complete_ok]
  exact congrArg (State.answered _ [·]) hstatus

/-- Settles O21: the Ready gate's two errors, the answer to `runPresent_ran`, and the count of its events. -/
theorem presentSendsTheWindowThenTheFrameMemory : Obligations.PresentSendsTheWindowThenTheFrameMemory := by
  refine fun s hadm => ⟨fun hs => ?faulted, fun hs hr => ?notReady, fun hr hn => ?sent, ?count⟩
  case faulted => exact congrArg Host.Outcome.next (complete_drawGate_of_faulted hs _)
  case notReady => exact congrArg Host.Outcome.next (complete_drawGate_of_not_ready hs hr _)
  case sent => exact exec_present_ran hadm hr hn
  case count => rw [presentEvents_length, memRead_length]

/-! ### An OK answer says that all of it was sent (R140, R145) -/

/-- A window that starts at the origin and ends inside the panel at `W - 1` and `H - 1` covers the panel. -/
theorem fullWindow_pixels {c : Cfg} (hv : (fullWindow c).valid c = true) :
    (fullWindow c).pixels = c.w.toNat * c.h.toNat := by
  simp only [Window.valid, Bool.and_eq_true, decide_eq_true_eq] at hv
  obtain ⟨⟨⟨-, hw⟩, -⟩, hh⟩ := hv
  have hcols : (fullWindow c).colEnd.toNat - (fullWindow c).colStart.toNat + 1 = c.w.toNat := by
    simp only [fullWindow] at hw ⊢
    bv_omega
  have hrows : (fullWindow c).rowEnd.toNat - (fullWindow c).rowStart.toNat + 1 = c.h.toNat := by
    simp only [fullWindow] at hh ⊢
    bv_omega
  rw [Window.pixels, hcols, hrows]

/-- The `err` field tells an error's response from OK in Ready (30_encoding.md R80). -/
theorem statusByte_error_ne_ok (e : Err) (st : CtrlState) : statusByte (some e) st ≠ 0x03 := by
  intro h
  obtain ⟨herr, -, -⟩ := statusByte_fields (some e) st
  rw [h] at herr
  exact Option.some_ne_none e ((errCode_eq_zero_iff (some e)).mp herr.symm)

/-- Only a PRESENT that completed answers OK. -/
theorem present_completed_of_ok {s t : State} (h : exec .present s = .next t)
    (hok : t.resps = s.resps ++ [[0x03]]) : Completed s t .present := by
  cases exec_cases .present s t h with
  | refused _ _ _ _ _ hi _ _ => cases hi
  | early e _ _ _ _ ht =>
    have hanswer : s.resps ++ [[statusByte (some e) s.st]] = s.resps ++ [[0x03]] := by rw [← hok, ht]; rfl
    exact absurd (by simpa using hanswer) (statusByte_error_ne_ok e s.st)
  | bus hb =>
    have hanswer : s.resps ++ [[0x40]] = s.resps ++ [[0x03]] := hb.resps.symm.trans hok
    exact absurd hanswer (by simp)
  | done hc => exact hc

/-- Settles O23: an OK answer is a completed PRESENT, which has loaded the full-panel window and sent its whole event
list. -/
theorem burstMatchesTheWindow : Obligations.BurstMatchesTheWindow := by
  intro s t h hok
  have hc := present_completed_of_ok h hok
  obtain ⟨hwin, hvalid⟩ := hc.window rfl
  refine ⟨fullWindow s.cfg, s.frameBytes, hwin, hvalid, ?_, ?_⟩
  · rw [frameBytes_length, fullWindow_pixels hvalid, Cfg.nFb, Nat.mul_assoc]
  · rw [hc.log]
    show s.log ++ presentEvents s.cfg s.frameBytes = _
    simp only [presentEvents_eq, opCaset, opPaset, opRamwr, List.append_assoc]

/-! ### PRESENT as three stages (R141 to R143, log 8) -/

section

variable {s : State} (hs : s.st ≠ .faulted)
include hs

theorem exec_caset_ran (cs ce : Word16) (hn : s.noBusFault 2) : exec (.caset cs ce) s =
    .next (ran s 2 (commandFrame opCaset ++ dataFrame (be16 cs ++ be16 ce)) false (some .data)
      (.busy (s.seq.nextFrame + 1) 4)) :=
  congrArg Host.Outcome.next (stage_commandData_ran (f := sendCaset cs ce) hs hn rfl)

theorem exec_paset_ran (rs re : Word16) (hn : s.noBusFault 2) : exec (.paset rs re) s =
    .next (ran s 2 (commandFrame opPaset ++ dataFrame (be16 rs ++ be16 re)) false (some .data)
      (.busy (s.seq.nextFrame + 1) 4)) :=
  congrArg Host.Outcome.next (stage_commandData_ran (f := sendPaset rs re) hs hn rfl)

theorem exec_ramwr_ran (burst : List Byte) (hn : s.noBusFault 2) : exec (.ramwr burst) s =
    .next (ran s 2 (commandFrame opRamwr ++ dataFrame burst) false (some .data)
      (.busy (s.seq.nextFrame + 1) burst.length)) :=
  congrArg Host.Outcome.next (stage_commandData_ran (f := ramWrite burst) hs hn rfl)

/-- The three wire rows of a full-panel update, one after another: the events of R144 in six frames. -/
theorem execAll_window_burst_ran (burst : List Byte) (hn : s.noBusFault 6) :
    execAll [.caset 0 (s.cfg.w - 1), .paset 0 (s.cfg.h - 1), .ramwr burst] s =
      .next (ran s 6 (presentEvents s.cfg burst) false (some .data) (.busy (s.seq.nextFrame + 5) burst.length)) := by
  have hcaset : s.noBusFault 2 := State.noBusFault_mono hn (by omega)
  have hpaset : s.noBusFault (2 + 2) := State.noBusFault_mono hn (by omega)
  have hramwr : s.noBusFault (4 + 2) := hn
  rw [execAll_cons (exec_caset_ran hs _ _ hcaset),
    execAll_cons (exec_paset_ran (s := ran s 2 _ _ _ _) hs _ _ (ran_noBusFault hpaset)), ran_ran,
    execAll_cons (exec_ramwr_ran (s := ran s 4 _ _ _ _) hs _ (ran_noBusFault hramwr)), ran_ran, presentEvents_eq]
  rfl

end

/-- Settles O24: the three rows and PRESENT's own frames leave the same state, which PRESENT then answers from. -/
theorem presentIsCasetPasetRamwr : Obligations.PresentIsCasetPasetRamwr := by
  intro s hadm hr hn
  have hrunning : (s.setWin (fullWindow s.cfg)).st ≠ .faulted := by simp [hr]
  exact ⟨_, execAll_window_burst_ran hrunning s.frameBytes hn, exec_present_ran hadm hr hn⟩

end Sys2Proof.Machine

/-! ## The frame-memory requests: SETPX, GETPX, FILL, BLIT, and RGB565 (43_frame_memory_ops.md) -/

namespace Sys2Proof.Machine

/-! ### Pixels in the frame memory (20_memory.md R50, R57) -/

section

variable {c : Cfg}

/-- Inside the panel's width, a pixel's address gives back its column and its row (R50). -/
theorem pixelAddr_inj {x y x' y' : Nat} (hx : x < c.w.toNat) (hx' : x' < c.w.toNat)
    (h : pixelAddr c x' y' = pixelAddr c x y) : x' = x ∧ y' = y := by
  have hsum : y' * c.w.toNat + x' = y * c.w.toNat + x := Nat.eq_of_mul_eq_mul_left Nat.two_pos h
  have hcol : x' = x := by simpa [Nat.mod_eq_of_lt, hx, hx'] using congrArg (· % c.w.toNat) hsum
  exact ⟨hcol, Nat.eq_of_mul_eq_mul_right (by omega) (by omega : y' * c.w.toNat = y * c.w.toNat)⟩

/-- Pixel addresses are even, so two pixels do not overlap by one byte. -/
theorem pixelAddr_ne_pixelAddr_succ (x y x' y' : Nat) : pixelAddr c x' y' ≠ pixelAddr c x y + 1 := by
  unfold pixelAddr
  omega

variable {m : List Host.Cell} (hm : Memory.wf c m = true) (v : Word16) (a : Nat)
include hm

theorem readCell_memWrite_be16_high : readCell c (memWrite c m a (be16 v)) a = v.extractLsb' 8 8 := by
  rw [readCell_memWrite c _ (Memory.rising_of_wf c hm), be16_length, if_pos (by omega), Nat.sub_self]
  rfl

theorem readCell_memWrite_be16_low : readCell c (memWrite c m a (be16 v)) (a + 1) = v.extractLsb' 0 8 := by
  rw [readCell_memWrite c _ (Memory.rising_of_wf c hm), be16_length, if_pos (by omega), Nat.add_sub_cancel_left]
  rfl

theorem readCell_memWrite_be16_other {a' : Nat} (hhi : a' ≠ a) (hlo : a' ≠ a + 1) :
    readCell c (memWrite c m a (be16 v)) a' = readCell c m a' := by
  rw [readCell_memWrite c _ (Memory.rising_of_wf c hm), be16_length, if_neg (by omega)]

theorem readPixel_memWrite_same : readPixel c (memWrite c m a (be16 v)) a = v := by
  rw [readPixel, readCell_memWrite_be16_high hm, readCell_memWrite_be16_low hm, ofBe16_be16]

theorem readPixel_memWrite_other {x y x' y' : Nat} (hx : x < c.w.toNat) (hx' : x' < c.w.toNat)
    (hne : ¬ (x' = x ∧ y' = y)) :
    readPixel c (memWrite c m (pixelAddr c x y) (be16 v)) (pixelAddr c x' y') = readPixel c m (pixelAddr c x' y') := by
  have haddr : pixelAddr c x' y' ≠ pixelAddr c x y := fun h => hne (pixelAddr_inj hx hx' h)
  have hodd := pixelAddr_ne_pixelAddr_succ (c := c) x y x' y'
  have hodd' := pixelAddr_ne_pixelAddr_succ (c := c) x' y' x y
  rw [readPixel, readCell_memWrite_be16_other hm v _ haddr hodd,
    readCell_memWrite_be16_other hm v _ hodd'.symm (by omega), readPixel]

end

/-- FILL twice is FILL once: the memories read the same everywhere, and both are in the one canonical form. -/
theorem fillPixels_fillPixels (c : Cfg) (v : Word16) (n : Nat) {m : List Host.Cell} (hm : Memory.wf c m = true) :
    fillPixels c v n (fillPixels c v n m) = fillPixels c v n m := by
  have hwf := Memory.wf_fillPixels c v n hm
  refine Memory.ext_of_read c (Memory.wf_fillPixels c v n hwf) hwf fun a => ?_
  rw [readCell_fillPixels c v n (Memory.rising_of_wf c hwf), readCell_fillPixels c v n (Memory.rising_of_wf c hm)]
  split <;> rfl

/-- Byte `k` of a run read from address 0. -/
theorem getElem?_memRead_zero (c : Cfg) (m : List Host.Cell) {k n : Nat} (hk : k < n) :
    (memRead c m 0 n)[k]? = some (readCell c m k) := by
  simp [memRead, List.getElem?_range hk]

/-! ### A drawing request (R160) -/

/-- The status byte of OK in Ready (30_encoding.md R80). -/
theorem statusByte_of_ready {s : State} (hr : s.st = .ready) : statusByte none s.st = 0x03 := by
  rw [hr]
  decide

/-- A drawing request: the Ready gate, a bounds check, one change of the frame memory, and the answer. -/
def drawing (inside : Cfg → Bool) (g : State → List Host.Cell) (s : State) : State :=
  complete ((drawGate s).andThen fun s => (boundsGate (inside s.cfg) s).andThen fun s => .ok (s.setFb (g s)))

/-- SETPX's write (R161). -/
def setpxMemory (x y c : Word16) (s : State) : List Host.Cell :=
  memWrite s.cfg s.fb (pixelAddr s.cfg x.toNat y.toNat) (be16 c)

/-- FILL's writes (R165). -/
def fillMemory (c : Word16) (s : State) : List Host.Cell :=
  fillPixels s.cfg c (s.cfg.w.toNat * s.cfg.h.toNat) s.fb

/-- BLIT's writes (R167). -/
def blitMemory (x y w h : Word16) (pix : List Byte) (s : State) : List Host.Cell :=
  blitRect s.cfg x.toNat y.toNat w.toNat h.toNat pix s.fb

theorem exec_setpx (x y c : Word16) (s : State) :
    exec (.setpx x y c) s = .next (drawing (pixelInside · x y) (setpxMemory x y c) s) := rfl

theorem exec_fill (c : Word16) (s : State) :
    exec (.fill c) s = .next (drawing (fun _ => true) (fillMemory c) s) := rfl

theorem exec_blit {w h : Word16} {pix : List Byte} (hlen : pix.length = 2 * w.toNat * h.toNat) (x y : Word16)
    (s : State) : exec (.blit x y w h pix) s = .next (drawing (rectInside · x y w h) (blitMemory x y w h pix) s) :=
  congrArg Host.Outcome.next (if_pos (by simpa [blitSourceFits] using hlen))

section

variable {s : State} (inside : Cfg → Bool) (g : State → List Host.Cell)

theorem drawing_of_faulted (hs : s.st = .faulted) : drawing inside g s = s.answered [0x14] :=
  complete_drawGate_of_faulted hs _

theorem drawing_of_not_ready (hs : s.st ≠ .faulted) (hr : s.st ≠ .ready) :
    drawing inside g s = s.answered [statusByte (some .initialization) s.st] :=
  complete_drawGate_of_not_ready hs hr _

variable {inside}

theorem drawing_of_outside (hr : s.st = .ready) (hout : inside s.cfg = false) :
    drawing inside g s = s.answered [0x33] := by
  rw [drawing, drawGate_ready hr, Res.andThen_ok, hout]
  refine (takeError_early (by decide)).trans ?_
  rw [hr]
  rfl

theorem drawing_of_inside (hr : s.st = .ready) (hin : inside s.cfg = true) :
    drawing inside g s = (s.setFb (g s)).answered [0x03] := by
  rw [drawing, drawGate_ready hr, Res.andThen_ok, hin]
  exact congrArg (State.answered (s.setFb (g s)) [·]) (statusByte_of_ready hr)

variable (inside) (s)

/-- Whatever a drawing request answers, it writes nothing but the frame memory. -/
theorem drawing_eq_answered : ∃ m bytes, drawing inside g s = (s.setFb m).answered bytes := by
  by_cases hs : s.st = .faulted
  · exact ⟨s.fb, _, drawing_of_faulted inside g hs⟩
  by_cases hr : s.st = .ready
  · cases hin : inside s.cfg
    · exact ⟨s.fb, _, drawing_of_outside g hr hin⟩
    · exact ⟨g s, _, drawing_of_inside g hr hin⟩
  · exact ⟨s.fb, _, drawing_of_not_ready inside g hs hr⟩

end

/-! ### The bounds checks, as the rules write them (R161, R169) -/

theorem pixelInside_eq_false_iff (c : Cfg) (x y : Word16) :
    pixelInside c x y = false ↔ c.w.toNat ≤ x.toNat ∨ c.h.toNat ≤ y.toNat := by
  rw [← Bool.not_eq_true, pixelInside_iff]
  omega

theorem rectInside_eq_false_iff (c : Cfg) (x y w h : Word16) :
    rectInside c x y w h = false ↔ c.w.toNat ≤ x.toNat ∨ c.h.toNat ≤ y.toNat ∨ c.w.toNat < x.toNat + w.toNat ∨
      c.h.toNat < y.toNat + h.toNat := by
  rw [← Bool.not_eq_true, rectInside_iff]
  omega

/-! ### SETPX and GETPX (R161, R163) -/

theorem exec_setpx_inside {s : State} {x y : Word16} (hx : x.toNat < s.cfg.w.toNat) (hy : y.toNat < s.cfg.h.toNat)
    (c : Word16) (hr : s.st = .ready) :
    exec (.setpx x y c) s = .next ((s.setFb (setpxMemory x y c s)).answered [0x03]) := by
  rw [exec_setpx, drawing_of_inside _ hr ((pixelInside_iff _ _ _).mpr ⟨hx, hy⟩)]

theorem exec_getpx_of_faulted {s : State} (hs : s.st = .faulted) (x y : Word16) :
    exec (.getpx x y) s = .next (s.answered [0x14]) := by
  refine congrArg Host.Outcome.next ?_
  rw [faultedGate_raises hs, Res.andThen_raise, completeWith, takeError_early (by decide), hs]
  rfl

section

variable {s : State} (hs : s.st ≠ .faulted) {x y : Word16}
include hs

theorem exec_getpx_outside (hout : pixelInside s.cfg x y = false) :
    exec (.getpx x y) s = .next (s.answered [statusByte (some .outOfBounds) s.st]) := by
  refine congrArg Host.Outcome.next ?_
  rw [faultedGate_passes hs, Res.andThen_ok, boundsGate, hout]
  exact takeError_early (by decide)

theorem exec_getpx_inside (hin : pixelInside s.cfg x y = true) : exec (.getpx x y) s =
    .next (s.answered (statusByte none s.st :: be16 (readPixel s.cfg s.fb (pixelAddr s.cfg x.toNat y.toNat)))) := by
  refine congrArg Host.Outcome.next ?_
  rw [faultedGate_passes hs, Res.andThen_ok, boundsGate, if_pos hin]
  rfl

end

theorem exec_getpx_eq_answered (s : State) (x y : Word16) :
    ∃ bytes, exec (.getpx x y) s = .next (s.answered bytes) := by
  by_cases hs : s.st = .faulted
  · exact ⟨_, exec_getpx_of_faulted hs x y⟩
  cases hin : pixelInside s.cfg x y
  · exact ⟨_, exec_getpx_outside hs hin⟩
  · exact ⟨_, exec_getpx_inside hs hin⟩

/-- Settles O27: the errors of a drawing request, and one `memWrite` of the colour's two bytes. -/
theorem setpxWritesOnePixel : Obligations.SetpxWritesOnePixel := by
  intro s x y c hm
  refine ⟨fun hs => ?faulted, fun hs hr => ?notReady, fun hr hout => ?outside, fun hr hx hy => ?written⟩
  case faulted => rw [exec_setpx, drawing_of_faulted _ _ hs]
  case notReady => rw [exec_setpx, drawing_of_not_ready _ _ hs hr]
  case outside => rw [exec_setpx, drawing_of_outside _ hr ((pixelInside_eq_false_iff _ _ _).mpr hout)]
  case written =>
    exact ⟨_, exec_setpx_inside hx hy c hr, rfl, readCell_memWrite_be16_high hm c _, readCell_memWrite_be16_low hm c _,
      fun a hhi hlo => readCell_memWrite_be16_other hm c _ hhi hlo⟩

/-- Settles O28: the Faulted gate, the bounds check, and the pixel's two bytes as they are read. -/
theorem getpxReadsOnePixel : Obligations.GetpxReadsOnePixel := by
  intro s x y
  refine ⟨fun hs => ?faulted, fun hs hout => ?outside, fun hs hx hy => ?read⟩
  case faulted => exact exec_getpx_of_faulted hs x y
  case outside => exact exec_getpx_outside hs ((pixelInside_eq_false_iff _ _ _).mpr hout)
  case read => rw [exec_getpx_inside hs ((pixelInside_iff _ _ _).mpr ⟨hx, hy⟩), readPixel, be16_ofBe16]

/-- Settles O29: GETPX answers `readPixel`, and SETPX changes it at its own coordinates only. -/
theorem getpxAfterSetpx : Obligations.GetpxAfterSetpx := by
  intro s x y c x' y' hm hr hx hy hx' hy'
  have hrun : s.st ≠ .faulted := by simp [hr]
  have hin : pixelInside s.cfg x' y' = true := (pixelInside_iff _ _ _).mpr ⟨hx', hy'⟩
  have hget : exec (.getpx x' y') ((s.setFb (setpxMemory x y c s)).answered [0x03]) =
      .next (State.answered _ (statusByte none s.st ::
        be16 (readPixel s.cfg (setpxMemory x y c s) (pixelAddr s.cfg x'.toNat y'.toNat)))) :=
    exec_getpx_inside (s := (s.setFb (setpxMemory x y c s)).answered [0x03]) hrun hin
  refine ⟨_, exec_setpx_inside hx hy c hr, ?same, fun hne => ⟨_, _, hget, exec_getpx_inside hrun hin, ?other⟩⟩
  case same =>
    rintro rfl rfl
    have hpixel : readPixel s.cfg (setpxMemory x' y' c s) (pixelAddr s.cfg x'.toNat y'.toNat) = c :=
      readPixel_memWrite_same hm c _
    rw [hget, hpixel, statusByte_of_ready hr]
  case other =>
    have hne' : ¬ (x'.toNat = x.toNat ∧ y'.toNat = y.toNat) := by simpa [BitVec.toNat_inj] using hne
    have hpixel := readPixel_memWrite_other hm c hx hx' hne'
    exact congrArg (fun v => s.resps ++ [statusByte none s.st :: be16 v]) hpixel.symm

/-! ### FILL (R165) -/

theorem exec_fill_ready {s : State} (hr : s.st = .ready) (c : Word16) :
    exec (.fill c) s = .next ((s.setFb (fillMemory c s)).answered [0x03]) := by
  rw [exec_fill, drawing_of_inside _ hr rfl]

/-- Settles O30: the gate's two errors, and `readCell_fillPixels` over the whole panel. -/
theorem fillSetsEveryPixel : Obligations.FillSetsEveryPixel := by
  intro s c hm
  refine ⟨fun hs => ?faulted, fun hs hr => ?notReady, fun hr => ?filled⟩
  case faulted => rw [exec_fill, drawing_of_faulted _ _ hs]
  case notReady => rw [exec_fill, drawing_of_not_ready _ _ hs hr]
  case filled =>
    have hread := readCell_fillPixels s.cfg c (s.cfg.w.toNat * s.cfg.h.toNat) (Memory.rising_of_wf _ hm)
    refine ⟨_, exec_fill_ready hr c, rfl, fun p hp => ⟨?_, ?_⟩, fun a ha => ?_⟩
    · refine (hread (2 * p)).trans ?_
      rw [if_pos (by omega), Nat.mul_mod_right]
      rfl
    · refine (hread (2 * p + 1)).trans ?_
      rw [if_pos (by omega), Nat.mul_add_mod]
      rfl
    · refine (hread a).trans (if_neg ?_)
      rw [Cfg.nFb, Nat.mul_assoc] at ha
      omega

/-- Settles O31: `fillPixels_fillPixels` over the whole panel. -/
theorem fillTwiceIsFillOnce : Obligations.FillTwiceIsFillOnce := fun s c hm hr =>
  ⟨_, _, exec_fill_ready hr c, exec_fill_ready (s := (s.setFb (fillMemory c s)).answered [0x03]) hr c,
    fillPixels_fillPixels s.cfg c _ hm⟩

/-! ### BLIT (R167 to R169) -/

/-- Pixel `(i, j)` of a `w` by `h` rectangle lies inside a source of `2·w·h` bytes. -/
theorem source_index_lt {w h i j : Nat} (hi : i < w) (hj : j < h) : 2 * (j * w + i) + 1 < 2 * w * h := by
  have hrows : (j + 1) * w ≤ h * w := Nat.mul_le_mul_right w hj
  rw [Nat.add_mul, Nat.one_mul] at hrows
  rw [Nat.mul_assoc, Nat.mul_comm w h]
  omega

/-- A byte that no pixel of a row segment covers lies before the segment or after it. -/
theorem outside_row_of_no_pixel {d w a : Nat} (h : ∀ i, i < w → a ≠ d + 2 * i ∧ a ≠ d + 2 * i + 1) :
    a < d ∨ d + 2 * w ≤ a := by
  by_contra hin
  have := h ((a - d) / 2) (by omega)
  omega

section

variable {c : Cfg} {m : List Host.Cell} {x y w h : Nat} {pix : List Byte} (hm : Memory.wf c m = true)
  (hx : x + w ≤ c.w.toNat)
include hm hx

/-- Inside the rectangle: byte `k` of a pixel is byte `k` of its source pixel. -/
theorem getElem?_eq_readCell_blitRect (hlen : pix.length = 2 * w * h) {i j k : Nat} (hi : i < w) (hj : j < h)
    (hk : k < 2) : pix[2 * (j * w + i) + k]? =
      some (readCell c (blitRect c x y w h pix m) (pixelAddr c (x + i) (y + j) + k)) := by
  obtain ⟨-, -, -, hread, -⟩ := blitRect_spec c x y w h pix (Memory.rising_of_wf c hm) hx
  have hlt : 2 * (j * w + i) + k < pix.length := by
    have := source_index_lt hi hj
    omega
  have hsource : 2 * (j * w) + (2 * i + k) = 2 * (j * w + i) + k := by omega
  rw [pixelAddr_add, Nat.add_assoc, hread j (2 * i + k) hj (by omega), hsource, List.getElem?_eq_getElem hlt,
    List.getD_eq_getElem _ _ hlt]

theorem readCell_blitRect_outside {a : Nat} (ha : ∀ i j, i < w → j < h →
    a ≠ pixelAddr c (x + i) (y + j) ∧ a ≠ pixelAddr c (x + i) (y + j) + 1) :
    readCell c (blitRect c x y w h pix m) a = readCell c m a := by
  obtain ⟨-, -, -, -, hframe⟩ := blitRect_spec c x y w h pix (Memory.rising_of_wf c hm) hx
  exact hframe a fun j hj => outside_row_of_no_pixel fun i hi => pixelAddr_add c x i (y + j) ▸ ha i j hi hj

end

/-- A rectangle of the panel's size at the origin: its source is the frame memory afterwards. -/
theorem memRead_blitRect_whole {c : Cfg} {m : List Host.Cell} {pix : List Byte} (hm : Memory.wf c m = true)
    (hw : 0 < c.w.toNat) (hlen : pix.length = c.nFb) :
    memRead c (blitRect c 0 0 c.w.toNat c.h.toNat pix m) 0 c.nFb = pix := by
  obtain ⟨-, -, -, hread, -⟩ :=
    blitRect_spec c 0 0 c.w.toNat c.h.toNat pix (Memory.rising_of_wf c hm) (Nat.zero_add _).le
  refine List.ext_getElem (by rw [memRead_length, hlen]) fun k hk hk' => ?_
  rw [memRead_length] at hk
  have hrow : k / (2 * c.w.toNat) < c.h.toNat := Nat.div_lt_of_lt_mul hk
  have hcol : k % (2 * c.w.toNat) < 2 * c.w.toNat := Nat.mod_lt _ (by omega)
  have hsplit : 2 * (k / (2 * c.w.toNat) * c.w.toNat) + k % (2 * c.w.toNat) = k := by
    rw [Nat.mul_left_comm, Nat.mul_comm, Nat.div_add_mod]
  have hbyte := hread _ _ hrow hcol
  rw [pixelAddr, Nat.zero_add, Nat.add_zero, hsplit, List.getD_eq_getElem _ _ hk'] at hbyte
  simpa [memRead] using hbyte

theorem exec_blit_inside {s : State} {x y w h : Word16} {pix : List Byte} (hr : s.st = .ready)
    (hlen : pix.length = 2 * w.toNat * h.toNat) (hin : rectInside s.cfg x y w h = true) :
    exec (.blit x y w h pix) s = .next ((s.setFb (blitMemory x y w h pix s)).answered [0x03]) := by
  rw [exec_blit hlen, drawing_of_inside _ hr hin]

/-- Settles O32: the errors of a drawing request, and `blitRect`'s bytes inside and outside the rectangle. -/
theorem blitCopiesTheRectangleOrFails : Obligations.BlitCopiesTheRectangleOrFails := by
  intro s x y w h pix hm hlen
  refine ⟨fun hs => ?faulted, fun hs hr => ?notReady, fun hr hout => ?outside, fun hr hx hy hxw hyh => ?copied⟩
  case faulted => rw [exec_blit hlen, drawing_of_faulted _ _ hs]
  case notReady => rw [exec_blit hlen, drawing_of_not_ready _ _ hs hr]
  case outside => rw [exec_blit hlen, drawing_of_outside _ hr ((rectInside_eq_false_iff _ _ _ _ _).mpr hout)]
  case copied =>
    refine ⟨_, exec_blit_inside hr hlen ((rectInside_iff _ _ _ _ _).mpr ⟨⟨hx, hy⟩, hxw, hyh⟩), rfl, fun i j hi hj => ?_,
      fun a ha => readCell_blitRect_outside hm hxw ha⟩
    exact ⟨getElem?_eq_readCell_blitRect (k := 0) hm hxw hlen hi hj (by decide),
      getElem?_eq_readCell_blitRect (k := 1) hm hxw hlen hi hj (by decide)⟩

/-- Settles O34: the panel's own rectangle passes the bounds check, and `memRead_blitRect_whole`. -/
theorem blitOfTheWholePanelReplacesTheFrameMemory : Obligations.BlitOfTheWholePanelReplacesTheFrameMemory := by
  intro s pix hm hadm hr hlen
  obtain ⟨hw, -, hh, -⟩ := s.cfg.admitted_iff.mp hadm
  have hin : rectInside s.cfg 0 0 s.cfg.w s.cfg.h = true :=
    (rectInside_iff _ _ _ _ _).mpr ⟨⟨hw, hh⟩, (Nat.zero_add _).le, (Nat.zero_add _).le⟩
  exact ⟨_, exec_blit_inside hr hlen hin, memRead_blitRect_whole hm hw hlen⟩

/-! ### RGB565 (R172) -/

theorem toNat_append_eq_add {n k : Nat} (hi : BitVec n) (lo : BitVec k) :
    (hi ++ lo).toNat = hi.toNat * 2 ^ k + lo.toNat := by
  rw [BitVec.toNat_append, ← Nat.shiftLeft_add_eq_or_of_lt lo.isLt, Nat.shiftLeft_eq]

/-- The packed value: each field's high bits at their place. -/
theorem packRgb565_toNat (r g b : Byte) :
    (packRgb565 r g b).toNat = r.toNat / 8 * 2048 + g.toNat / 4 * 32 + b.toNat / 8 := by
  have hr := r.isLt
  have hg := g.isLt
  have hb := b.isLt
  simp only [packRgb565, toNat_append_eq_add, BitVec.extractLsb'_toNat, Nat.shiftRight_eq_div_pow]
  omega

/-- Settles O35: RGB565 has no gate, and its value is `packRgb565`. -/
theorem rgb565PacksTheHighBits : Obligations.Rgb565PacksTheHighBits :=
  fun _ r g b => ⟨packRgb565 r g b, packRgb565_toNat r g b, rfl⟩

/-! ### No event, and no other field (R174) -/

/-- A frame-memory request or RGB565 answers and writes at most the frame memory, or it is a refused BLIT. -/
theorem exec_frameMemory_cases {s t : State} {i : Instr} (h : exec i s = .next t)
    (hi : (∃ x y c, i = .setpx x y c) ∨ (∃ x y, i = .getpx x y) ∨ (∃ c, i = .fill c) ∨
      (∃ x y w h pix, i = .blit x y w h pix) ∨ ∃ r g b, i = .rgb565 r g b) :
    t = s.refusedOnce ∨ ∃ m bytes, t = (s.setFb m).answered bytes := by
  rcases hi with ⟨x, y, c, rfl⟩ | ⟨x, y, rfl⟩ | ⟨c, rfl⟩ | ⟨x, y, w, h', pix, rfl⟩ | ⟨r, g, b, rfl⟩
  · cases h
    exact .inr (drawing_eq_answered s (pixelInside · x y) (setpxMemory x y c))
  · obtain ⟨bytes, hget⟩ := exec_getpx_eq_answered s x y
    exact .inr ⟨s.fb, bytes, Host.Outcome.next.inj (h.symm.trans hget)⟩
  · cases h
    exact .inr (drawing_eq_answered s (fun _ => true) (fillMemory c))
  · by_cases hlen : pix.length = 2 * w.toNat * h'.toNat
    · rw [exec_blit hlen] at h
      cases h
      exact .inr (drawing_eq_answered s _ _)
    · exact .inl (Host.Outcome.next.inj (h.symm.trans (blitOfAnotherLengthIsRefused s x y w h' pix hlen)))
  · cases h
    exact .inr ⟨s.fb, _, rfl⟩

/-- Settles O36: neither a refusal nor an answer, with another frame memory or not, writes any of the six fields. -/
theorem frameMemoryRequestsEmitNothing : Obligations.FrameMemoryRequestsEmitNothing := by
  intro s t i h hi
  rcases exec_frameMemory_cases h hi with rfl | ⟨m, bytes, rfl⟩ <;> exact ⟨rfl, rfl, rfl, rfl, rfl, rfl⟩

/-! ### From SETPX to the panel (R174) -/

/-- Settles O38: the burst is the frame memory that SETPX left, read from address 0 (`exec_present_ran`). -/
theorem aWrittenPixelReachesItsPlaceInTheBurst : Obligations.AWrittenPixelReachesItsPlaceInTheBurst := by
  intro s x y c hm hadm hr hn hx hy
  have hend := pixelAddr_row_end s.cfg (w := 1) hx hy
  have hbyte {k : Nat} (hk : k < s.cfg.nFb) := getElem?_memRead_zero s.cfg (setpxMemory x y c s) hk
  refine ⟨_, _, memRead s.cfg (setpxMemory x y c s) 0 s.cfg.nFb, exec_setpx_inside hx hy c hr,
    exec_present_ran (s := (s.setFb (setpxMemory x y c s)).answered [0x03]) hadm hr hn, rfl, rfl, memRead_length ..,
    ?high, ?low, fun k hk hhi hlo => ?other⟩
  case high => rw [hbyte (by omega), setpxMemory, readCell_memWrite_be16_high hm]
  case low => rw [hbyte (by omega), setpxMemory, readCell_memWrite_be16_low hm]
  case other => rw [hbyte hk, setpxMemory, readCell_memWrite_be16_other hm c _ hhi hlo]

end Sys2Proof.Machine

/-! ## Errors: the request stream goes on, the gates, and what an error leaves (60_exceptions.md) -/

namespace Sys2Proof.Machine

/-! ### An error does not stop the request stream (R209, R210) -/

/-- Settles O9, by induction on the number of steps: `step` answers a next state in every state. -/
theorem noRunEverStops : Obligations.NoRunEverStops := by
  intro k
  induction k with
  | zero => exact fun s => ⟨s, rfl⟩
  | succ k ih =>
    intro s
    obtain ⟨u, hu⟩ := step_next s
    rw [run_succ k s u hu]
    exact ih u

/-! ### While Faulted (R201) -/

/-- In Faulted every well-formed instruction but RGB565 raises ConfigurationError as its first action. -/
theorem exec_of_faulted {s : State} {i : Instr} (hs : s.st = .faulted) (hwf : i.wf = true)
    (hrgb : ∀ r g b, i ≠ .rgb565 r g b) : exec i s = .next (s.answered [0x14]) := by
  obtain ⟨t, h⟩ := exec_next i s
  cases exec_cases i s t h with
  | refused x y w h' pix hi hlen _ =>
    subst hi
    exact absurd (by simpa [Instr.wf, sourceFits] using hwf) hlen
  | early e _ hcfg _ _ ht =>
    rw [h, ht, hcfg.mp hs, hs]
    rfl
  | bus hb => exact absurd hs hb.running
  | done hc => exact absurd hs (hc.running hrgb)

/-- A wire row's operands are of any value, so it is always well formed; and it is not RGB565. -/
theorem wireRow_traits {i : Instr} (h : i.isRequest = false) : i.wf = true ∧ ∀ r g b, i ≠ .rgb565 r g b := by
  cases i with
  | swreset | slpout | dispon | caset | paset | ramwr | madctl => exact ⟨rfl, by simp⟩
  | _ => cases h

/-- Settles O40: `exec_of_faulted`, and RGB565 has no gate to raise an error. -/
theorem faultedAnswersConfigurationError : Obligations.FaultedAnswersConfigurationError := by
  refine ⟨fun s i hs _ hwf hrgb => exec_of_faulted hs hwf hrgb, fun s r g b hs => ?_⟩
  have hstatus : statusByte none s.st = 0x04 := by rw [hs]; decide
  rw [← hstatus]
  exact ⟨_, _, rfl⟩

/-- Settles O19: a wire row opens with the same gate as a request. -/
theorem faultedEmitsNoWireCommand : Obligations.FaultedEmitsNoWireCommand := by
  intro s i hwire hs
  obtain ⟨hwf, hrgb⟩ := wireRow_traits hwire
  exact exec_of_faulted hs hwf hrgb

/-! ### Before Ready (R202) -/

/-- The `err` field of a status byte is its error's code (30_encoding.md R80). -/
theorem statusByte_err (e : Option Err) (st : CtrlState) : (statusByte e st).extractLsb' 4 4 = errCode e := by
  obtain ⟨herr, -, -⟩ := statusByte_fields e st
  exact herr

/-- The `err` field tells OK and the four errors apart (R200). -/
theorem errCode_injective : Function.Injective errCode := by
  intro e e'
  rcases e with _ | (_ | _ | _ | _) <;> rcases e' with _ | (_ | _ | _ | _) <;> decide

/-- A request that is not behind the Ready gate answers, and never with InitializationError. -/
theorem exec_resps_of_not_gated {s t : State} {i : Instr} (hreq : i.isRequest = true) (hgate : isGated i = false)
    (h : exec i s = .next t) :
    ∃ e v, e ≠ some .initialization ∧ t.resps = s.resps ++ [responseBytes e t.st v] := by
  cases exec_cases i s t h with
  | refused _ _ _ _ _ hi _ _ => subst hi; cases hgate
  | early e _ _ _ hinit ht =>
    refine ⟨some e, none, fun he => ?_, by rw [ht]; rfl⟩
    obtain ⟨hgated, -⟩ := hinit (Option.some.inj he)
    exact absurd hgated (by simp [hgate])
  | bus hb => exact ⟨some .busTransfer, none, by decide, by rw [hb.resps, hb.st]; rfl⟩
  | done hc =>
    obtain ⟨hresps, -, -⟩ := hc.answer hreq
    exact ⟨none, _, by decide, hresps⟩

/-- Settles O41: from Uninitialized the Ready gate of each drawing request raises before its operands are looked at, and
`exec_resps_of_not_gated` for the others. -/
theorem drawingBeforeReadyFails : Obligations.DrawingBeforeReadyFails := by
  refine ⟨fun s i hs hwf hi => ?gated, fun s t i h hi => ?others⟩
  case gated =>
    have hf : s.st ≠ .faulted := by simp [hs]
    have hr : s.st ≠ .ready := by simp [hs]
    have hstatus : (0x20 : Byte) = statusByte (some .initialization) s.st := by rw [hs]; decide
    rw [hstatus]
    rcases hi with rfl | ⟨x, y, c, rfl⟩ | ⟨c, rfl⟩ | ⟨x, y, w, h, pix, rfl⟩
    · exact congrArg Host.Outcome.next (complete_drawGate_of_not_ready hf hr _)
    · rw [exec_setpx, drawing_of_not_ready _ _ hf hr]
    · rw [exec_fill, drawing_of_not_ready _ _ hf hr]
    · have hlen : pix.length = 2 * w.toNat * h.toNat := by simpa [Instr.wf, sourceFits] using hwf
      rw [exec_blit hlen, drawing_of_not_ready _ _ hf hr]
  case others =>
    have htraits : i.isRequest = true ∧ isGated i = false := by
      rcases hi with ⟨_, rfl⟩ | ⟨_, rfl⟩ | rfl | rfl | ⟨_, _, rfl⟩ | ⟨_, _, _, rfl⟩ <;> exact ⟨rfl, rfl⟩
    obtain ⟨hreq, hgate⟩ := htraits
    obtain ⟨e, v, he, hresps⟩ := exec_resps_of_not_gated hreq hgate h
    rw [responseBytes_eq] at hresps
    refine ⟨_, _, hresps, ?_⟩
    rw [statusByte_err]
    exact errCode_injective.ne he

/-! ### What an error leaves (R206, R208) -/

/-- Said once for every error answer: it is an early error, and nothing but the answer changed, or it is a bus fault. -/
theorem exec_error_cases {s t : State} {i : Instr} {status : Byte} {value : List Byte} (h : exec i s = .next t)
    (hresps : t.resps = s.resps ++ [status :: value]) (herr : status.extractLsb' 4 4 ≠ 0) :
    value = [] ∧ ((∃ e, e ≠ .busTransfer ∧ status = statusByte (some e) s.st ∧ t = s.answered [status]) ∨
      (status = 0x40 ∧ BusFaulted s t i)) := by
  have hanswer {bytes : List Byte} (hbytes : t.resps = s.resps ++ [bytes]) : status :: value = bytes :=
    List.singleton_inj.mp (List.append_cancel_left (hresps.symm.trans hbytes))
  have hsilent : t.resps ≠ s.resps := by simp [hresps]
  cases exec_cases i s t h with
  | refused _ _ _ _ _ _ _ ht => exact absurd (by rw [ht]; rfl) hsilent
  | early e he _ _ _ ht =>
    obtain ⟨rfl, rfl⟩ := List.cons.inj (hanswer (bytes := [statusByte (some e) s.st]) (by rw [ht]; rfl))
    exact ⟨rfl, .inl ⟨e, he, rfl, ht⟩⟩
  | bus hb =>
    obtain ⟨rfl, rfl⟩ := List.cons.inj (hanswer hb.resps)
    exact ⟨rfl, .inr ⟨rfl, hb⟩⟩
  | done hc =>
    cases hreq : i.isRequest
    · obtain ⟨hsame, -⟩ := hc.noAnswer hreq
      exact absurd hsame hsilent
    · obtain ⟨hok, -, -⟩ := hc.answer hreq
      have hbytes := hanswer hok
      rw [responseBytes_eq] at hbytes
      obtain ⟨rfl, -⟩ := List.cons.inj hbytes
      exact absurd (statusByte_err none t.st) herr

/-- Settles O42: an answer with code 4 is no early error's, so it is the bus fault's, and `BusFaulted` says what one
leaves. -/
theorem busFaultLeavesTheBlockUninitialized : Obligations.BusFaultLeavesTheBlockUninitialized := by
  intro s t i status value h hresps herr
  obtain ⟨hvalue, ⟨e, he, hstatus, -⟩ | ⟨hstatus, hb⟩⟩ := exec_error_cases h hresps (by rw [herr]; decide)
  · rw [hstatus, statusByte_err] at herr
    exact absurd (Option.some.inj (errCode_injective (a₂ := some .busTransfer) herr)) he
  · exact ⟨hb.running, hb.st, hstatus, hvalue, hb.rp, hb.seq, hb.frame, hb.fb, hb.cfg, hb.port, hb.refused, hb.win,
      hb.rst⟩

/-- Settles O43: an answer with code 1, 2 or 3 is an error's and not the bus fault's, whose code is 4. -/
theorem earlyErrorsArePrecise : Obligations.EarlyErrorsArePrecise := by
  intro s t i status value h hresps herr
  have hne : status.extractLsb' 4 4 ≠ 0 := fun h0 => absurd (h0 ▸ herr) (by decide)
  obtain ⟨hvalue, ⟨_, -, -, ht⟩ | ⟨rfl, -⟩⟩ := exec_error_cases h hresps hne
  · exact ⟨hvalue, ht⟩
  · exact absurd herr (by decide)

end Sys2Proof.Machine

/-! ## Reset and hazards: the wait after a reset-line event (70_reset_and_hazards.md) -/

namespace Sys2Proof.Machine

/-! ### Every reset-line event in the log is followed at once by its wait (R240) -/

/-- Every reset-line event that the log holds is followed at once by a wait of at least 50 ms. -/
def ResetSettled (s : State) : Prop := rstSettled s.log = true

theorem ResetSettled.append {s t : State} {es : List Event} (h : ResetSettled s) (hlog : t.log = s.log ++ es)
    (hes : rstSettled es = true) : ResetSettled t := by
  rw [ResetSettled, hlog]
  exact rstSettled_append h hes

theorem ResetSettled.of_log {s t : State} (h : ResetSettled s) (hlog : t.log = s.log) : ResetSettled t := by
  rwa [ResetSettled, hlog]

theorem rstSettled_frame (m : Mode) (bs : List Byte) {close : List Event} (h : rstSettled close = true) :
    rstSettled ([.cs true, .dc m] ++ bs.map .byte ++ close) = true :=
  rstSettled_bytes bs close h

/-- Failing or not, a frame logs no reset-line event (40_framer.md R100, R104). -/
theorem frame_resetSettled {s : State} (h : ResetSettled s) (m : Mode) (bs : List Byte) :
    (frame m bs s).Sat ResetSettled fun _ => ResetSettled := by
  refine frame_sat m bs s (h.append rfl (rstSettled_frame m bs rfl)) fun k _ =>
    h.append rfl (rstSettled_frame m _ ?close)
  cases (s.drawAt 0).csf <;> rfl

theorem delay_resetSettled {s : State} (h : ResetSettled s) (ms : Nat) : ResetSettled (s.delay ms) :=
  h.append rfl rfl

/-- Each edge of the reset pulse has its own wait of 50 ms (41_init_sequencer.md R120). -/
theorem pulseRst_resetSettled {s : State} (h : ResetSettled s) : ResetSettled (pulseRst s) :=
  h.append (es := [.rst .low, .delay 50, .rst .high, .delay 50]) (by simp [pulseRst]) rfl

theorem exec_resetSettled {s t : State} {i : Instr} (h : ResetSettled s) (he : exec i s = .next t) :
    ResetSettled t := by
  refine exec_keeps (I := ResetSettled) (J := ResetSettled) (fun m bs _ hu => frame_resetSettled hu m bs)
    (fun _ ms hu => delay_resetSettled hu ms) (fun _ => id) (fun _ hu _ => pulseRst_resetSettled hu)
    ?setSt ?setSt ?setWin ?respond ?drawing i s t h he
  case setSt => exact fun _ _ hu => hu.of_log rfl
  case setWin => exact fun _ _ hu _ => hu.of_log rfl
  case respond => exact fun _ _ hu => hu.of_log rfl
  case drawing =>
    intro u i v hu hv hd
    obtain ⟨hlog, -⟩ := drawing_same hv hd
    exact hu.of_log hlog

/-- Settles O20: the reset pulse is all that drives the reset line, and it waits after each edge. -/
theorem resetLineSettlesBeforeTheNextEvent : Obligations.ResetLineSettlesBeforeTheNextEvent :=
  fun _ _ _ he h => exec_resetSettled h he

end Sys2Proof.Machine
